-- ==== Sys2Proof/Word.lean ====
section
/-! DEFINITION. The data types of the engine: bytes, Words and StateArrays (spec/00_scope.md R9 to R11). -/

namespace Sys2Proof

/-- An unsigned 8-bit value, bit 0 least significant (R9). -/
abbrev Byte := BitVec 8

/-- A 32-bit host value: a register, an operand or a command word (R9). -/
abbrev Reg := BitVec 32

/-- A Word: four ordered bytes, `b0` first (R10). -/
structure Word where
  b0 : Byte
  b1 : Byte
  b2 : Byte
  b3 : Byte
deriving DecidableEq, Repr

/-- A 16-byte block as the 4 by 4 matrix of R11, held by columns: column `c` is the
Word `(S[4c], S[4c+1], S[4c+2], S[4c+3])`, so `s[r][c]` is byte `r` of column `c`. -/
structure Block where
  c0 : Word
  c1 : Word
  c2 : Word
  c3 : Word
deriving DecidableEq, Repr

/-- The Word of four zero bytes. -/
def Word.zero : Word := ⟨0, 0, 0, 0⟩

/-- The block of sixteen zero bytes. -/
def Block.zero : Block := ⟨Word.zero, Word.zero, Word.zero, Word.zero⟩

end Sys2Proof
end

