-- ==== Sys2Proof/Syntax.lean ====
section
/-! DEFINITION. The 19 commands of spec/30_encoding.md R95, one constructor per row of opcode_table.json. -/

namespace Sys2Proof

/-- A command. `r` and `j` are the IMM field of the word (R90, R93): 4 bits, a value 0..15. -/
inductive Instr where
  | nop
  | kexp
  | encblk
  | decblk
  | encmsg
  | decmsg
  | ldstate
  | ststate
  | subbytes
  | invsubbytes
  | shiftrows
  | invshiftrows
  | mixcolumns
  | invmixcolumns
  | addrk (r : BitVec 4)
  | rotword
  | subword
  | xorword
  | rconxor (j : BitVec 4)
deriving DecidableEq, Repr

end Sys2Proof
end

