-- ==== Sys2Proof/WellFormed.lean ====
section
/-! DEFINITION. Which commands exist: the operand ranges of spec/30_encoding.md R94 (c), (d) and R98. -/

namespace Sys2Proof

/-- R98: `ADDRK r` has r = 0..10, `RCONXOR j` has j = 1..10, no other command has an operand. -/
def Instr.wf : Instr → Bool
  | .addrk r => decide (r.toNat ≤ 10)
  | .rconxor j => decide (1 ≤ j.toNat) && decide (j.toNat ≤ 10)
  | .nop | .kexp | .encblk | .decblk | .encmsg | .decmsg | .ldstate | .ststate
  | .subbytes | .invsubbytes | .shiftrows | .invshiftrows | .mixcolumns | .invmixcolumns
  | .rotword | .subword | .xorword => true

end Sys2Proof
end

