-- ==== Sys2Proof/Decode.lean ====
section
/-! DEFINITION. The decoder of spec/30_encoding.md R94 and R95, and the encoder of R98. -/

namespace Sys2Proof

/-- Why a word is illegal: the clauses (a) to (e) of R94. -/
inductive Illegal where
  /-- (a) `v[31:12] != 0`. -/
  | reservedBits
  /-- (b) `v[7:0]` is no opcode of the table of R95. -/
  | unassignedOpcode
  /-- (c) ADDRK with imm > 10. -/
  | roundIndex
  /-- (d) RCONXOR with imm = 0 or imm > 10. -/
  | constantIndex
  /-- (e) any other command with imm != 0. -/
  | immediateNotZero
deriving DecidableEq, Repr

/-- OPC, bits 7:0 (R90). -/
def opcField (v : Reg) : BitVec 8 := v.extractLsb' 0 8

/-- IMM, bits 11:8 (R90, R93). -/
def immField (v : Reg) : BitVec 4 := v.extractLsb' 8 4

/-- RSV, bits 31:12 (R90). -/
def rsvField (v : Reg) : BitVec 20 := v.extractLsb' 12 20

/-- Clause (e) of R94: a command without an operand needs IMM = 0. -/
def withoutOperand (imm : BitVec 4) (i : Instr) : Except Illegal Instr :=
  if imm = 0 then .ok i else .error .immediateNotZero

/-- Clause (c) of R94: ADDRK needs imm <= 10. -/
def withRoundIndex (imm : BitVec 4) : Except Illegal Instr :=
  if imm.toNat ≤ 10 then .ok (.addrk imm) else .error .roundIndex

/-- Clause (d) of R94: RCONXOR needs 1 <= imm <= 10. -/
def withConstantIndex (imm : BitVec 4) : Except Illegal Instr :=
  if 1 ≤ imm.toNat ∧ imm.toNat ≤ 10 then .ok (.rconxor imm) else .error .constantIndex

/-- The opcode map of R95. -/
def decodeOpcode (opc : Nat) (imm : BitVec 4) : Except Illegal Instr :=
  match opc with
  | 0x00 => withoutOperand imm .nop
  | 0x01 => withoutOperand imm .kexp
  | 0x02 => withoutOperand imm .encblk
  | 0x03 => withoutOperand imm .decblk
  | 0x04 => withoutOperand imm .encmsg
  | 0x05 => withoutOperand imm .decmsg
  | 0x06 => withoutOperand imm .ldstate
  | 0x07 => withoutOperand imm .ststate
  | 0x10 => withoutOperand imm .subbytes
  | 0x11 => withoutOperand imm .invsubbytes
  | 0x12 => withoutOperand imm .shiftrows
  | 0x13 => withoutOperand imm .invshiftrows
  | 0x14 => withoutOperand imm .mixcolumns
  | 0x15 => withoutOperand imm .invmixcolumns
  | 0x16 => withRoundIndex imm
  | 0x20 => withoutOperand imm .rotword
  | 0x21 => withoutOperand imm .subword
  | 0x22 => withoutOperand imm .xorword
  | 0x23 => withConstantIndex imm
  | _ => .error .unassignedOpcode

/-- R94: Decode, total on all 2^32 words; a rejected word says which clause rejects it. -/
def decode (v : Reg) : Except Illegal Instr :=
  if rsvField v = 0 then decodeOpcode (opcField v).toNat (immField v) else .error .reservedBits

/-- The OPC column of R95. -/
def opcodeOf : Instr → BitVec 8
  | .nop => 0x00
  | .kexp => 0x01
  | .encblk => 0x02
  | .decblk => 0x03
  | .encmsg => 0x04
  | .decmsg => 0x05
  | .ldstate => 0x06
  | .ststate => 0x07
  | .subbytes => 0x10
  | .invsubbytes => 0x11
  | .shiftrows => 0x12
  | .invshiftrows => 0x13
  | .mixcolumns => 0x14
  | .invmixcolumns => 0x15
  | .addrk _ => 0x16
  | .rotword => 0x20
  | .subword => 0x21
  | .xorword => 0x22
  | .rconxor _ => 0x23

/-- The IMM field of a command: its operand, or 0 (R90). -/
def immOf : Instr → BitVec 4
  | .addrk r => r
  | .rconxor j => j
  | .nop | .kexp | .encblk | .decblk | .encmsg | .decmsg | .ldstate | .ststate
  | .subbytes | .invsubbytes | .shiftrows | .invshiftrows | .mixcolumns | .invmixcolumns
  | .rotword | .subword | .xorword => 0

/-- R98: the assembled word is `OPC | imm<<8`. -/
def encode (i : Instr) : Reg :=
  (opcodeOf i).setWidth 32 ||| ((immOf i).setWidth 32 <<< 8)

/-- The command the decoder reads from a word numbered as opcode_table.json numbers it
(one 32-bit word, bit 0 least significant); none where the decoder rejects it. -/
def decodeTableWord (nbits w : Nat) : Option Instr :=
  if nbits ≤ 32 ∧ w < 2 ^ nbits then
    match decode (BitVec.ofNat 32 w) with
    | .ok i => some i
    | .error _ => none
  else none

end Sys2Proof
end

