-- ==== Sys2Proof/Config.lean ====
section
/-! DEFINITION. The parameters of an implementation (spec/00_scope.md R8) and a free value: what the
spec leaves open and nothing in Lean can evaluate. The other one, `Config.busySteps`, takes a state and
stands in Machine/State.lean. -/

namespace Sys2Proof

/-- The parameters R8 says the model takes as arguments. The state carries them (no step writes
them), so a statement over all states is a statement over all parameters. Log entry 8. -/
structure Config where
  /-- MEM_BYTES, the size of the message buffer MEM. -/
  memBytes : Nat
  /-- ENGINE_BASE, the host physical address of offset 0 of the window. -/
  engineBase : Nat
deriving DecidableEq, Repr

/-- R8: MEM_BYTES is a multiple of 16 in 16..65536; ENGINE_BASE is aligned to 0x20000. -/
def Config.legal (c : Config) : Bool :=
  c.memBytes % 16 == 0 && decide (16 ≤ c.memBytes) && decide (c.memBytes ≤ 65536) &&
    c.engineBase % 0x20000 == 0

/-- The spec's default MEM_BYTES = 4096 (R8); ENGINE_BASE is the platform's.
DESIGN CHOICE 0 for ENGINE_BASE, log entry 8. -/
def Config.standard : Config := { memBytes := 4096, engineBase := 0 }

/-- FREE VALUE (log entry 2): what reading MEM byte `a` yields at counter value `n` when nothing has
written that byte since reset. That it takes no more than these two is a DESIGN CHOICE. R48: "a value this spec does not fix, and two reads need not agree". -/
opaque Config.freeByte : (n : Nat) → (a : Nat) → Byte

end Sys2Proof
end

