-- ==== Sys2Proof/Machine/State.lean ====
section
/-! DEFINITION. The machine's state as plain data (spec/10_state.md), its reasons to stop, and reset. -/

namespace Sys2Proof.Machine

/-- The engine error codes of spec/60_exceptions.md R221. Codes 7..15 are never produced, so
they have no name. -/
inductive ErrCode where
  | noError
  | illegalCmd
  | configError
  | noKey
  | memRange
  | lenAlign
  | padRange
deriving DecidableEq, Repr

/-- One line of a host program (spec/30_encoding.md R99): a bus transaction (spec/10_state.md R40), the
mask, the two branches (to a line number), or the platform's reset (spec/70_reset_and_hazards.md R250)
at this place of the total order. -/
inductive HostOp where
  /-- `HostRead(off, width)`: `off` is an offset of the 128 KiB window. -/
  | read (off : BitVec 17) (width : Nat)
  /-- `HostWrite(off, width, v)`; an 8-bit write uses `v[7:0]`. -/
  | write (off : BitVec 17) (width : Nat) (v : Reg)
  /-- `and m`: mask the last read value. -/
  | mask (m : Reg)
  /-- `bnz label`: go to a line if the last read value is nonzero. -/
  | bnz (line : Nat)
  /-- `bz label`: go to a line if the last read value is zero. -/
  | bz (line : Nat)
  /-- The platform asserts the engine's reset. -/
  | reset
deriving DecidableEq, Repr

/-- What the bus answers to one host transaction (spec/10_state.md R40, spec/60_exceptions.md R230). -/
inductive Response where
  | data8 (b : Byte)
  | data32 (v : Reg)
  | written
  | busError
deriving DecidableEq, Repr

/-- MEM: the bytes written since reset, addresses strictly rising. An address that is not listed
has no value (spec/10_state.md R48: unspecified until it is written). Log entry 2. -/
abbrev Memory := List Host.Cell

/-- Why the machine stops. -/
inductive Fault where
  /-- Raised by the host step for a transaction inside the BUSY hazard window other than a 32-bit
  read of STATUS. spec/70_reset_and_hazards.md R260 leaves its effect unspecified, and
  spec/93_implementation_defined.md U2 tells a model to fault. SAFE: the run stops, nothing is
  claimed of it. Log entry 6. -/
  | hazardViolation
deriving DecidableEq, Repr

/-- Why an instruction has no meaning. -/
inductive Refusal where
  /-- Raised by `exec` for a command without a meaning; no arm of `exec` raises it. SAFE. -/
  | notModelled (mnemonic : String)
deriving DecidableEq, Repr

/-- All the state the spec gives the machine (INVENTORY.md, "State"). -/
structure State where
  /-- MEM_BYTES and ENGINE_BASE (R8); no step writes it. -/
  cfg : Config
  /-- SRC (R25). -/
  src : Reg
  /-- LEN (R25). -/
  len : Reg
  /-- DST (R25). -/
  dst : Reg
  /-- OUTLEN (R30). -/
  outlen : Reg
  /-- ERRCMD (R31). -/
  errcmd : Reg
  /-- WA (R27). -/
  wa : Reg
  /-- WB (R27). -/
  wb : Reg
  /-- S[0..15], by columns (R26). -/
  st : Block
  /-- W[0..43] (R28). -/
  w : Vector Word 44
  /-- KVALID (R29). -/
  kvalid : Bool
  /-- ERR (R32). -/
  err : ErrCode
  /-- PEND; BUSY is 1 exactly when a command is pending (R33). -/
  pend : Option Reg
  /-- The hazard window of R260 is open: a CMD write was accepted and no STATUS read has yet
  returned BUSY = 0. -/
  window : Bool
  /-- MEM (R60). -/
  mem : Memory
  /-- The host's program (R99). -/
  hostProg : List HostOp
  /-- The host's current line. -/
  hostPc : Nat
  /-- The host's last read value (R99). -/
  hostLast : Reg
  /-- The bus's answers to the host so far, newest first. -/
  responses : List Response
  /-- The model's own: host steps still to pass before the engine performs PEND. Log entry 4. -/
  busyLeft : Nat
  /-- The model's own: the counter the free values are applied to. Log entry 12. -/
  ticks : Nat
deriving DecidableEq, Repr

/-- Reset (spec/70_reset_and_hazards.md R250) of an engine with parameters `c`. WA, WB, S and W are
unspecified there: DESIGN CHOICE zero, log entry 1. The host has no program yet: log entry 5. -/
def State.resetWith (c : Config) : State where
  cfg := c
  src := 0
  len := 0
  dst := 0
  outlen := 0
  errcmd := 0
  wa := 0
  wb := 0
  st := Block.zero
  w := Vector.replicate 44 Word.zero
  kvalid := false
  err := .noError
  pend := none
  window := false
  mem := []
  hostProg := []
  hostPc := 0
  hostLast := 0
  responses := []
  busyLeft := 0
  ticks := 0

/-- The machine right after reset, with the spec's default parameters. -/
def State.reset : State := State.resetWith Config.standard

end Sys2Proof.Machine

namespace Sys2Proof

/-- FREE VALUE (log entry 4): how many host steps pass between the CMD write of `v` accepted in state
`s` and the engine's step. spec/70_reset_and_hazards.md R262: finite but unspecified, zero is allowed, and
it "may differ between commands and may depend on the data" (spec/44_block_cipher.md R186). DESIGN CHOICE:
it takes the command word and the whole state, `ticks` among it, so no two states or commands have
durations that could be proved equal. -/
opaque Config.busySteps : (v : Reg) → (s : Machine.State) → Nat

end Sys2Proof
end

