-- ==== Sys2Proof/Machine/Flags.lean ====
section
/-! DEFINITION. The STATUS register (spec/10_state.md R24): its fields are the engine's only flags. -/

namespace Sys2Proof.Machine

/-- The code of an engine error (spec/60_exceptions.md R221). -/
def ErrCode.code : ErrCode → BitVec 4
  | .noError => 0
  | .illegalCmd => 1
  | .configError => 2
  | .noKey => 3
  | .memRange => 4
  | .lenAlign => 5
  | .padRange => 6

/-- BUSY (R33): 1 while a command is pending. -/
def State.busy (s : State) : Bool := s.pend.isSome

/-- R24: a read of STATUS returns `zext_32(ERR<<4 | KVALID<<1 | BUSY)`. -/
def State.status (s : State) : Reg :=
  (s.err.code.setWidth 32 <<< 4) ||| ((BitVec.ofBool s.kvalid).setWidth 32 <<< 1) |||
    (BitVec.ofBool s.busy).setWidth 32

end Sys2Proof.Machine
end

