-- ==== Sys2Proof/Machine/Operands.lean ====
section
/-! DEFINITION. The operand forms: Words and columns as 32-bit values, blocks as bytes, round keys
(spec/00_scope.md R10, R11; spec/10_state.md R26, R28; spec/20_memory.md R62). -/

namespace Sys2Proof.Machine

/-- R10: `toWord(v) = (v[31:24], v[23:16], v[15:8], v[7:0])`. -/
def toWord (v : Reg) : Word :=
  ⟨v.extractLsb' 24 8, v.extractLsb' 16 8, v.extractLsb' 8 8, v.extractLsb' 0 8⟩

/-- R10: `word32(w) = b0<<24 | b1<<16 | b2<<8 | b3`. -/
def word32 (w : Word) : Reg :=
  (w.b0.setWidth 32 <<< 24) ||| (w.b1.setWidth 32 <<< 16) |||
    (w.b2.setWidth 32 <<< 8) ||| w.b3.setWidth 32

/-- Byte `r` of a Word, `r` = 0..3. -/
def wordByte (w : Word) (r : Fin 4) : Byte :=
  match r with
  | 0 => w.b0
  | 1 => w.b1
  | 2 => w.b2
  | 3 => w.b3

/-- Column `c` of a block, `c` = 0..3 (R11). -/
def blockCol (s : Block) (c : Fin 4) : Word :=
  match c with
  | 0 => s.c0
  | 1 => s.c1
  | 2 => s.c2
  | 3 => s.c3

/-- The block with column `c` replaced: a write of STATEc (R26). -/
def setBlockCol (s : Block) (c : Fin 4) (w : Word) : Block :=
  match c with
  | 0 => { s with c0 := w }
  | 1 => { s with c1 := w }
  | 2 => { s with c2 := w }
  | 3 => { s with c3 := w }

/-- R11: the matrix entry `s[r][c]`. -/
def blockEntry (s : Block) (r c : Fin 4) : Byte := wordByte (blockCol s c) r

/-- The four bytes of a Word, `b0` first. -/
def wordBytes (w : Word) : List Byte := [w.b0, w.b1, w.b2, w.b3]

/-- R26: the flat byte sequence `S[0] .. S[15]`, column-major. -/
def blockBytes (s : Block) : List Byte :=
  wordBytes s.c0 ++ wordBytes s.c1 ++ wordBytes s.c2 ++ wordBytes s.c3

/-- The Word of bytes `i` to `i+3` of a sequence (R62, R170). It is only applied where the sequence
has those bytes. -/
def wordAt (l : List Byte) (i : Nat) : Word :=
  ⟨l.getD i 0, l.getD (i + 1) 0, l.getD (i + 2) 0, l.getD (i + 3) 0⟩

/-- R11: loading a 16-byte block gives `S[i] = B[i]`. It is only applied to sequences of at least 16
bytes and reads the first 16. -/
def blockOfBytes (l : List Byte) : Block :=
  ⟨wordAt l 0, wordAt l 4, wordAt l 8, wordAt l 12⟩

/-- R28, R173(b): round key r is `W[4r], W[4r+1], W[4r+2], W[4r+3]`, as the columns of a block. -/
def roundKey (w : Vector Word 44) (r : Fin 11) : Block :=
  ⟨w[4 * r.val], w[4 * r.val + 1], w[4 * r.val + 2], w[4 * r.val + 3]⟩

end Sys2Proof.Machine
end

