-- ==== Sys2Proof/Machine/Ops.lean ====
section
/-! DEFINITION. The named operations over memory and registers, taking an engine error and leaving
one, the end of a command, and reset. -/

namespace Sys2Proof.Machine

/-- The outcome of a step of this machine. -/
abbrev Result := Host.Outcome State Fault Refusal

/-! ### MEM (spec/20_memory.md) -/

/-- The canonical form of MEM: addresses strictly rising. No address has a value by default, so
every listed entry says something. -/
abbrev Memory.wf (m : Memory) : Prop := m.Pairwise (fun x y => x.1 < y.1)

/-- The byte stored at `a`, none if nothing has written it since reset (spec/10_state.md R48). -/
def Memory.read : Memory → Nat → Option Byte
  | [], _ => none
  | (k, b) :: m, a => if k = a then some b else Memory.read m a

/-- `MEM[a] <- b`, keeping the canonical form. -/
def Memory.write : Memory → Nat → Byte → Memory
  | [], a, b => [(a, b)]
  | (k, x) :: m, a, b =>
    if a < k then (a, b) :: (k, x) :: m
    else if a = k then (a, b) :: m
    else (k, x) :: Memory.write m a b

/-- MemWrite of spec/00_scope.md R12: `MEM[a+k] <- v[k]`. -/
def Memory.writeBytes : Memory → Nat → List Byte → Memory
  | m, _, [] => m
  | m, a, b :: bs => Memory.writeBytes (m.write a b) (a + 1) bs

/-- The value a read of MEM byte `a` yields: the stored byte, or where nothing has written one a free
value (log entry 2). -/
def State.readByte (s : State) (a : Nat) : Byte :=
  match s.mem.read a with
  | some b => b
  | none => Config.freeByte s.ticks a

/-- MemRead of spec/00_scope.md R12: the `n` bytes from `a` on. -/
def State.readBytes (s : State) (a : Nat) : Nat → List Byte
  | 0 => []
  | n + 1 => s.readByte a :: s.readBytes (a + 1) n

/-- MemWrite of spec/00_scope.md R12, on the state. -/
def State.writeBytes (s : State) (a : Nat) (bs : List Byte) : State :=
  { s with mem := s.mem.writeBytes a bs }

/-- R64: a command access of `n` bytes at `a` is in range iff `a + n <= MEM_BYTES`, in unbounded
naturals (R63). -/
def State.inRange (s : State) (a n : Nat) : Bool := decide (a + n ≤ s.cfg.memBytes)

/-! ### Engine errors (spec/60_exceptions.md) -/

/-- R225: "if the command is KEXP and E is CONFIG_ERROR or MEM_RANGE". -/
def dropsKey (e : ErrCode) (v : Reg) : Bool :=
  decide (v = encode .kexp) && (decide (e = .configError) || decide (e = .memRange))

/-- R225, error entry: the command with word `v` raises `e`. Every other write of the command is
discarded, so nothing else changes. -/
def raiseError (e : ErrCode) (v : Reg) (s : State) : State :=
  { s with
    err := e
    errcmd := v
    kvalid := s.kvalid && !dropsKey e v
    pend := none }

/-- R228, error return: ERRCLR sets ERR to 0 and restores nothing else. -/
def clearError (s : State) : State := { s with err := .noError }

/-- A command's rule ends in error `e`. A command has one word (R95), so the word in PEND is
`encode i`: log entry 9. -/
def fail (e : ErrCode) (i : Instr) (s : State) : Result := .next (raiseError e (encode i) s)

/-! ### The command cycle (spec/30_encoding.md R91, R92) -/

/-- An accepted CMD write: `PEND <- v ; BUSY <- 1` (R91), which opens the hazard window of
spec/70_reset_and_hazards.md R260. `n` host steps will pass before the engine's step (R262). -/
def acceptCommand (v : Reg) (n : Nat) (s : State) : State :=
  { s with pend := some v, window := true, busyLeft := n }

/-- Issue (R91): with ERR != 0 the command is discarded without effect; otherwise it is accepted,
with a BUSY duration the spec leaves open, which may depend on the command and on all data
(log entry 4). -/
def issueCommand (v : Reg) (s : State) : State :=
  if s.err = .noError then acceptCommand v (Config.busySteps v s) s else s

/-- The end of the engine's step: `BUSY <- 0` (R92), and the model's counter advances. -/
def finishCommand (s : State) : State := { s with pend := none, ticks := s.ticks + 1 }

/-- Apply a function to the next state of an outcome. -/
def mapNext (f : State → State) : Result → Result
  | .next s => .next (f s)
  | .fault r => .fault r
  | .refused r => .refused r

/-! ### Reset (spec/70_reset_and_hazards.md R250, R251) -/

/-- Reset at any time: the engine takes the values of R250 (and log entry 1), a pending command is
abandoned without effect. The parameters, the host's side and the model's counter are not the
engine's and stay. Log entry 11. -/
def resetEngine (s : State) : State :=
  { State.resetWith s.cfg with
    hostProg := s.hostProg
    hostPc := s.hostPc
    hostLast := s.hostLast
    responses := s.responses
    ticks := s.ticks }

end Sys2Proof.Machine
end

