-- ==== Sys2Proof/Machine/Control.lean ====
section
/-! DEFINITION. Engine control (spec/46_engine_control.md). -/

namespace Sys2Proof.Machine

/-- R210, NOP: no state changes apart from the BUSY cycle, which is the step's. -/
def execNop (s : State) : Result := .next s

end Sys2Proof.Machine
end

