-- ==== Sys2Proof/Machine/WordOps.lean ====
section
/-! DEFINITION. The Word primitives and their commands (spec/41_word_ops.md). -/

namespace Sys2Proof.Machine

/-- R140, RotWord: "rotate-left-1-byte". -/
def rotWord (w : Word) : Word := ⟨w.b1, w.b2, w.b3, w.b0⟩

/-- R140, SubWord: "each byte S-box-substituted". -/
def subWord (w : Word) : Word := ⟨sbox w.b0, sbox w.b1, sbox w.b2, sbox w.b3⟩

/-- R140, WXor: byte-wise exclusive or. -/
def wxor (u w : Word) : Word := ⟨u.b0 ^^^ w.b0, u.b1 ^^^ w.b1, u.b2 ^^^ w.b2, u.b3 ^^^ w.b3⟩

/-- R140, Rcon(j), for j = 1..10. -/
def rcon (j : Nat) : Word := ⟨rc j, 0x00, 0x00, 0x00⟩

/-- R141, ROTWORD: `WA <- word32(RotWord(toWord(WA)))`. -/
def execRotword (s : State) : Result :=
  .next { s with wa := word32 (rotWord (toWord s.wa)) }

/-- R142, SUBWORD: `WA <- word32(SubWord(toWord(WA)))`. -/
def execSubword (s : State) : Result :=
  .next { s with wa := word32 (subWord (toWord s.wa)) }

/-- R143, XORWORD: `WA <- word32(WXor(toWord(WA), toWord(WB)))`. -/
def execXorword (s : State) : Result :=
  .next { s with wa := word32 (wxor (toWord s.wa) (toWord s.wb)) }

/-- R144, RCONXOR j: `WA <- word32(WXor(toWord(WA), Rcon(j)))`. ILLEGAL_CMD for j outside 1..10, which
the decoder has already raised (R94 (d)): log entry 10. -/
def execRconxor (j : BitVec 4) (s : State) : Result :=
  if 1 ≤ j.toNat ∧ j.toNat ≤ 10 then
    .next { s with wa := word32 (wxor (toWord s.wa) (rcon j.toNat)) }
  else fail .illegalCmd (.rconxor j) s

end Sys2Proof.Machine
end

