-- ==== Sys2Proof/Machine/KeySchedule.lean ====
section
/-! DEFINITION. The key schedule and KEXP (spec/43_key_schedule.md). -/

namespace Sys2Proof.Machine

/-- R170, one step: `W[i]` from `prev = W[i-1]` and `back4 = W[i-4]`. -/
def nextWord (i : Nat) (prev back4 : Word) : Word :=
  if i % 4 = 0 then wxor (wxor back4 (subWord (rotWord prev))) (rcon (i / 4))
  else wxor back4 prev

/-- R170, the loop: `W[i]`, `W[i+1]`, ... (`n` of them), from the four Words before `W[i]`. -/
def expandFrom (i : Nat) : Nat → Word → Word → Word → Word → List Word
  | 0, _, _, _, _ => []
  | n + 1, w0, w1, w2, w3 =>
    nextWord i w3 w0 :: expandFrom (i + 1) n w1 w2 w3 (nextWord i w3 w0)

theorem length_expandFrom (i n : Nat) (w0 w1 w2 w3 : Word) :
    (expandFrom i n w0 w1 w2 w3).length = n := by
  induction n generalizing i w0 w1 w2 w3 with
  | zero => rfl
  | succ n ih => simp [expandFrom, ih]

/-- R170: the 44 Words of a 16-byte key as a list: the four key Words, then i = 4..43
(90_conflicts.md C1). -/
def expandList (k : List Byte) : List Word :=
  [wordAt k 0, wordAt k 4, wordAt k 8, wordAt k 12] ++
    expandFrom 4 40 (wordAt k 0) (wordAt k 4) (wordAt k 8) (wordAt k 12)

theorem length_expandList (k : List Byte) : (expandList k).length = 44 := by
  simp [expandList, length_expandFrom]

/-- R170: `Expand(K)`. -/
def expand (k : List Byte) : Vector Word 44 := ⟨(expandList k).toArray, by simp [length_expandList]⟩

/-- R171, KEXP: CONFIG_ERROR unless LEN = 16, then MEM_RANGE, both with KVALID cleared (R225); else all
44 Words are replaced and KVALID is set. -/
def execKexp (s : State) : Result :=
  if s.len ≠ 16 then fail .configError .kexp s
  else if s.inRange s.src.toNat 16 = false then fail .memRange .kexp s
  else .next { s with w := expand (s.readBytes s.src.toNat 16), kvalid := true }

end Sys2Proof.Machine
end

