-- ==== Sys2Proof/Machine/StateOps.lean ====
section
/-! DEFINITION. The StateArray primitives and their commands, and the moves of S from and to MEM
(spec/42_state_ops.md). -/

namespace Sys2Proof.Machine

/-- InvSbox on the four bytes of a column. -/
def invSubWord (w : Word) : Word := ⟨invSbox w.b0, invSbox w.b1, invSbox w.b2, invSbox w.b3⟩

/-- R150, SubBytes: "substitute every byte via the fixed forward S-box". -/
def subBytes (s : Block) : Block := ⟨subWord s.c0, subWord s.c1, subWord s.c2, subWord s.c3⟩

/-- R150, InvSubBytes. -/
def invSubBytes (s : Block) : Block :=
  ⟨invSubWord s.c0, invSubWord s.c1, invSubWord s.c2, invSubWord s.c3⟩

/-- R150, ShiftRows: `s'[r][c] = s[r][(c + r) mod 4]`. Row `r` of new column `c` comes from old column
`c + r`. -/
def shiftRows (s : Block) : Block :=
  ⟨⟨s.c0.b0, s.c1.b1, s.c2.b2, s.c3.b3⟩,
   ⟨s.c1.b0, s.c2.b1, s.c3.b2, s.c0.b3⟩,
   ⟨s.c2.b0, s.c3.b1, s.c0.b2, s.c1.b3⟩,
   ⟨s.c3.b0, s.c0.b1, s.c1.b2, s.c2.b3⟩⟩

/-- R150, InvShiftRows: `s'[r][c] = s[r][(c + 4 - r) mod 4]` (90_conflicts.md C4). -/
def invShiftRows (s : Block) : Block :=
  ⟨⟨s.c0.b0, s.c3.b1, s.c2.b2, s.c1.b3⟩,
   ⟨s.c1.b0, s.c0.b1, s.c3.b2, s.c2.b3⟩,
   ⟨s.c2.b0, s.c1.b1, s.c0.b2, s.c3.b3⟩,
   ⟨s.c3.b0, s.c2.b1, s.c1.b2, s.c0.b3⟩⟩

/-- One column through the circulant matrix whose first row is `m0 m1 m2 m3` (R150): row `r` is the
first row rotated right by `r` places. -/
def mixColumn (m0 m1 m2 m3 : Byte) (a : Word) : Word :=
  ⟨mul a.b0 m0 ^^^ mul a.b1 m1 ^^^ mul a.b2 m2 ^^^ mul a.b3 m3,
   mul a.b0 m3 ^^^ mul a.b1 m0 ^^^ mul a.b2 m1 ^^^ mul a.b3 m2,
   mul a.b0 m2 ^^^ mul a.b1 m3 ^^^ mul a.b2 m0 ^^^ mul a.b3 m1,
   mul a.b0 m1 ^^^ mul a.b1 m2 ^^^ mul a.b2 m3 ^^^ mul a.b3 m0⟩

/-- A column of MixColumns: first row {02,03,01,01}. -/
def mixWord (a : Word) : Word := mixColumn 0x02 0x03 0x01 0x01 a

/-- A column of InvMixColumns: first row {0e,0b,0d,09}. -/
def invMixWord (a : Word) : Word := mixColumn 0x0e 0x0b 0x0d 0x09 a

/-- R150, MixColumns. -/
def mixColumns (s : Block) : Block := ⟨mixWord s.c0, mixWord s.c1, mixWord s.c2, mixWord s.c3⟩

/-- R150, InvMixColumns. -/
def invMixColumns (s : Block) : Block :=
  ⟨invMixWord s.c0, invMixWord s.c1, invMixWord s.c2, invMixWord s.c3⟩

/-- R150, AddRoundKey: `s'[i][c] = s[i][c] xor W[4r + c].b_i`, with the round key's Words as the columns
of `k`. -/
def addRoundKey (s k : Block) : Block :=
  ⟨wxor s.c0 k.c0, wxor s.c1 k.c1, wxor s.c2 k.c2, wxor s.c3 k.c3⟩

/-- A command that replaces S by a function of S and writes nothing else. -/
def applyToBlock (f : Block → Block) (s : State) : State := { s with st := f s.st }

/-- R151, SUBBYTES. -/
def execSubbytes (s : State) : Result := .next (applyToBlock subBytes s)

/-- R152, INVSUBBYTES. -/
def execInvsubbytes (s : State) : Result := .next (applyToBlock invSubBytes s)

/-- R153, SHIFTROWS. -/
def execShiftrows (s : State) : Result := .next (applyToBlock shiftRows s)

/-- R154, INVSHIFTROWS. -/
def execInvshiftrows (s : State) : Result := .next (applyToBlock invShiftRows s)

/-- R155, MIXCOLUMNS. -/
def execMixcolumns (s : State) : Result := .next (applyToBlock mixColumns s)

/-- R156, INVMIXCOLUMNS. -/
def execInvmixcolumns (s : State) : Result := .next (applyToBlock invMixColumns s)

/-- R157, ADDRK r: NO_KEY without a valid schedule, else round key r is xored into S. ILLEGAL_CMD for
r > 10, which the decoder has already raised (R94 (c)): log entry 10. -/
def execAddrk (r : BitVec 4) (s : State) : Result :=
  if h : r.toNat ≤ 10 then
    if s.kvalid = false then fail .noKey (.addrk r) s
    else .next (applyToBlock (fun b => addRoundKey b (roundKey s.w ⟨r.toNat, by omega⟩)) s)
  else fail .illegalCmd (.addrk r) s

/-- R158, LDSTATE: S from the 16 bytes at MEM[SRC]. -/
def execLdstate (s : State) : Result :=
  if s.inRange s.src.toNat 16 then
    .next (applyToBlock (fun _ => blockOfBytes (s.readBytes s.src.toNat 16)) s)
  else fail .memRange .ldstate s

/-- R159, STSTATE: S to the 16 bytes at MEM[DST]. -/
def execStstate (s : State) : Result :=
  if s.inRange s.dst.toNat 16 then .next (s.writeBytes s.dst.toNat (blockBytes s.st))
  else fail .memRange .ststate s

end Sys2Proof.Machine
end

