-- ==== Sys2Proof/Machine/BlockCipher.lean ====
section
/-! DEFINITION. The block cipher and its commands (spec/44_block_cipher.md). -/

namespace Sys2Proof.Machine

/-- R180, one round, 1..10: round 10 omits the column mix. -/
def encRound (w : Vector Word 44) (s : Block) (round : Fin 11) : Block :=
  addRoundKey
    (if round ≠ 10 then mixColumns (shiftRows (subBytes s)) else shiftRows (subBytes s))
    (roundKey w round)

/-- R180: `Cipher(B)` under the schedule `w`, rounds 1 to 10 ascending. -/
def cipher (w : Vector Word 44) (b : Block) : Block :=
  [1, 2, 3, 4, 5, 6, 7, 8, 9, 10].foldl (encRound w) (addRoundKey b (roundKey w 0))

/-- R181, one round, 9..0: round 0 has no inverse column mix. -/
def decRound (w : Vector Word 44) (s : Block) (round : Fin 11) : Block :=
  if round ≠ 0 then
    invMixColumns (addRoundKey (invSubBytes (invShiftRows s)) (roundKey w round))
  else addRoundKey (invSubBytes (invShiftRows s)) (roundKey w round)

/-- R181: `InvCipher(B)` under the schedule `w`, rounds 9 to 0 descending (90_conflicts.md C3). -/
def invCipher (w : Vector Word 44) (b : Block) : Block :=
  [9, 8, 7, 6, 5, 4, 3, 2, 1, 0].foldl (decRound w) (addRoundKey b (roundKey w 10))

/-- R182, ENCBLK: encrypt S in place. -/
def execEncblk (s : State) : Result :=
  if s.kvalid = false then fail .noKey .encblk s else .next (applyToBlock (cipher s.w) s)

/-- R183, DECBLK: decrypt S in place. -/
def execDecblk (s : State) : Result :=
  if s.kvalid = false then fail .noKey .decblk s else .next (applyToBlock (invCipher s.w) s)

end Sys2Proof.Machine
end

