-- ==== Sys2Proof/Machine/Message.lean ====
section
/-! DEFINITION. Padding, the message functions and the message commands (spec/45_message_ecb.md). -/

namespace Sys2Proof.Machine

/-- R190: the padding count of a sequence of length `l`, 1..16. -/
def padCount (l : Nat) : Nat := 16 - l % 16

/-- R190: `Pad(P)`. -/
def pad (p : List Byte) : List Byte :=
  p ++ List.replicate (padCount p.length) (BitVec.ofNat 8 (padCount p.length))

/-- The loop of R191 and R192: the first `n` 16-byte blocks of a sequence, each through `f` on its own,
the results concatenated in order. -/
def mapBlocks (f : Block → Block) : Nat → List Byte → List Byte
  | 0, _ => []
  | n + 1, l => blockBytes (f (blockOfBytes (l.take 16))) ++ mapBlocks f n (l.drop 16)

/-- R191: `EncryptMessage(P)`. -/
def encryptMessage (w : Vector Word 44) (p : List Byte) : List Byte :=
  mapBlocks (cipher w) ((pad p).length / 16) (pad p)

/-- R192: `DecryptBlocks(C)`, for a length that is a multiple of 16. -/
def decryptBlocks (w : Vector Word 44) (c : List Byte) : List Byte :=
  mapBlocks (invCipher w) (c.length / 16) c

/-- R193: the final byte n of a nonempty sequence, as a number. -/
def finalByte (d : List Byte) : Nat := (d.getD (d.length - 1) 0).toNat

/-- R193: `Unpad(D)`, plain truncation by the final byte's value, no validation. -/
def unpad (d : List Byte) : List Byte := d.take (d.length - finalByte d)

/-- R194: `DecryptMessage(C)`. -/
def decryptMessage (w : Vector Word 44) (c : List Byte) : List Byte := unpad (decryptBlocks w c)

/-- The last two lines of R196 and R197: the output is written at DST and its length to OUTLEN. -/
def writeOutput (bs : List Byte) (s : State) : State :=
  { s.writeBytes s.dst.toNat bs with outlen := BitVec.ofNat 32 bs.length }

/-- The destination check that ends R196 and R197, then the output. -/
def deliver (i : Instr) (bs : List Byte) (s : State) : Result :=
  if s.inRange s.dst.toNat bs.length then .next (writeOutput bs s) else fail .memRange i s

/-- R196, ENCMSG. The checks are in the order of spec/60_exceptions.md R226. -/
def execEncmsg (s : State) : Result :=
  if s.kvalid = false then fail .noKey .encmsg s
  else if s.inRange s.src.toNat s.len.toNat = false then fail .memRange .encmsg s
  else deliver .encmsg (encryptMessage s.w (s.readBytes s.src.toNat s.len.toNat)) s

/-- R197 from `D` on: PAD_RANGE for L = 0 or n > L, else the truncated plaintext is delivered. -/
def unpadAndDeliver (d : List Byte) (s : State) : Result :=
  if d.length = 0 then fail .padRange .decmsg s
  else if d.length < finalByte d then fail .padRange .decmsg s
  else deliver .decmsg (unpad d) s

/-- R197, DECMSG. The checks are in the order of spec/60_exceptions.md R226. -/
def execDecmsg (s : State) : Result :=
  if s.kvalid = false then fail .noKey .decmsg s
  else if s.len.toNat % 16 ≠ 0 then fail .lenAlign .decmsg s
  else if s.inRange s.src.toNat s.len.toNat = false then fail .memRange .decmsg s
  else unpadAndDeliver (decryptBlocks s.w (s.readBytes s.src.toNat s.len.toNat)) s

end Sys2Proof.Machine
end

