-- ==== Sys2Proof/Machine/Dispatch.lean ====
section
/-! DEFINITION. The meaning of each command: one arm per row of spec/30_encoding.md R95. -/

namespace Sys2Proof.Machine

def exec (i : Instr) (s : State) : Host.Outcome State Fault Refusal :=
  match i with
  | .nop => Sys2Proof.Machine.execNop s
  | .kexp => Sys2Proof.Machine.execKexp s
  | .encblk => Sys2Proof.Machine.execEncblk s
  | .decblk => Sys2Proof.Machine.execDecblk s
  | .encmsg => Sys2Proof.Machine.execEncmsg s
  | .decmsg => Sys2Proof.Machine.execDecmsg s
  | .ldstate => Sys2Proof.Machine.execLdstate s
  | .ststate => Sys2Proof.Machine.execStstate s
  | .subbytes => Sys2Proof.Machine.execSubbytes s
  | .invsubbytes => Sys2Proof.Machine.execInvsubbytes s
  | .shiftrows => Sys2Proof.Machine.execShiftrows s
  | .invshiftrows => Sys2Proof.Machine.execInvshiftrows s
  | .mixcolumns => Sys2Proof.Machine.execMixcolumns s
  | .invmixcolumns => Sys2Proof.Machine.execInvmixcolumns s
  | .addrk r => Sys2Proof.Machine.execAddrk r s
  | .rotword => Sys2Proof.Machine.execRotword s
  | .subword => Sys2Proof.Machine.execSubword s
  | .xorword => Sys2Proof.Machine.execXorword s
  | .rconxor j => Sys2Proof.Machine.execRconxor j s

end Sys2Proof.Machine
end

