-- ==== Sys2Proof/Machine/HostBus.lean ====
section
/-! DEFINITION. The host's side of the window: the register map, the bus transactions, and the lines of
a host program (spec/10_state.md R22 to R46, spec/20_memory.md R61, spec/30_encoding.md R99). -/

namespace Sys2Proof.Machine

/-- What an offset of the window selects (R22). -/
inductive Loc where
  | cmd
  | status
  | src
  | len
  | dst
  | outlen
  | errcmd
  | wa
  | wb
  | stateCol (c : Fin 4)
  | rk (i : Fin 44)
  | mem (a : Nat)
  | reserved
deriving DecidableEq, Repr

/-- R22, RK0..RK43: Word `i` of the key schedule at 0x100 + 4i. -/
def rkLoc (n : Nat) : Loc :=
  if h : 0x100 ≤ n ∧ n < 0x1B0 ∧ n % 4 = 0 then .rk ⟨(n - 0x100) / 4, by omega⟩ else .reserved

/-- R22, the registers below RK0, by offset. -/
def registerTable : List (Nat × Loc) :=
  [(0x000, .cmd), (0x004, .status), (0x008, .src), (0x00C, .len), (0x010, .dst), (0x014, .outlen),
   (0x018, .errcmd), (0x01C, .wa), (0x020, .wb)] ++
  [(0x030, .stateCol 0), (0x034, .stateCol 1), (0x038, .stateCol 2), (0x03C, .stateCol 3)]

/-- R22, the offsets below 0x10000. Only 4-aligned offsets are accessed there (R41). -/
def registerLoc (n : Nat) : Loc :=
  match registerTable.lookup n with
  | some l => l
  | none => rkLoc n

/-- R22, the whole window: registers below 0x10000, then MEM, then reserved. -/
def locate (cfg : Config) (off : BitVec 17) : Loc :=
  if off.toNat < 0x10000 then registerLoc off.toNat
  else if off.toNat - 0x10000 < cfg.memBytes then .mem (off.toNat - 0x10000)
  else .reserved

/-- R22, R68: the window sits at ENGINE_BASE in the host's address space; a host address outside it
is none of the engine's. -/
def windowOffset (cfg : Config) (addr : Nat) : Option (BitVec 17) :=
  if cfg.engineBase ≤ addr ∧ addr < cfg.engineBase + 0x20000 then
    some (BitVec.ofNat 17 (addr - cfg.engineBase))
  else none

/-- The transactions that are bus errors (spec/60_exceptions.md R230, R41, R61): any width but 8 and 32,
a 32-bit access that is not 4-aligned, an 8-bit access below 0x10000. -/
def busError (off : BitVec 17) (width : Nat) : Bool :=
  if width = 32 then decide (off.toNat % 4 ≠ 0)
  else if width = 8 then decide (off.toNat < 0x10000)
  else true

/-! ### Reads -/

/-- R61: a 32-bit read of MEM, the lowest address in bits 31:24. -/
def State.readMem32 (s : State) (a : Nat) : Reg :=
  word32 ⟨s.readByte a, s.readByte (a + 1), s.readByte (a + 2), s.readByte (a + 3)⟩

/-- What a legal 32-bit read of a location returns (R22 to R31, R42, R43). -/
def State.readLoc32 (s : State) : Loc → Reg
  | .cmd => 0
  | .status => s.status
  | .src => s.src
  | .len => s.len
  | .dst => s.dst
  | .outlen => s.outlen
  | .errcmd => s.errcmd
  | .wa => s.wa
  | .wb => s.wb
  | .stateCol c => word32 (blockCol s.st c)
  | .rk i => word32 s.w[i]
  | .mem a => s.readMem32 a
  | .reserved => 0

/-- What a legal 8-bit read returns: a byte of MEM (R61), or 0 at a reserved offset (R43). Registers
take no 8-bit access (R41), so the last arm is not reached. -/
def State.readLoc8 (s : State) : Loc → Byte
  | .mem a => s.readByte a
  | .cmd | .status | .src | .len | .dst | .outlen | .errcmd | .wa | .wb
  | .stateCol _ | .rk _ | .reserved => 0

/-- The bus answers the host. -/
def respond (r : Response) (s : State) : State := { s with responses := r :: s.responses }

/-- The bus answers a read with `r`, and `v` becomes the host's last read value (R99). -/
def receive (r : Response) (v : Reg) (s : State) : State :=
  { s with hostLast := v, responses := r :: s.responses }

/-- spec/70_reset_and_hazards.md R260, spec/20_memory.md R72: a STATUS read that returns BUSY = 0 closes
the hazard window. No other read has an effect on the engine (R67). -/
def closeWindow (l : Loc) (s : State) : State :=
  if l = .status ∧ s.busy = false then { s with window := false } else s

/-- HostRead(off, width) (R40). The value returned becomes the host's last read value, an 8-bit one
zero-extended (log entry 17); a bus error returns no value (R41, log entry 7). -/
def hostRead (off : BitVec 17) (width : Nat) (s : State) : State :=
  if busError off width then respond .busError s
  else if width = 8 then
    receive (.data8 (s.readLoc8 (locate s.cfg off))) ((s.readLoc8 (locate s.cfg off)).setWidth 32) s
  else
    closeWindow (locate s.cfg off)
      (receive (.data32 (s.readLoc32 (locate s.cfg off))) (s.readLoc32 (locate s.cfg off)) s)

/-! ### Writes -/

/-- R45: a write of STATUS with bit 31 set is ERRCLR; otherwise it has no effect. -/
def writeStatus (v : Reg) (s : State) : State :=
  if v.getLsbD 31 then clearError s else s

/-- A legal 32-bit write of a location (R23, R25 to R31, R42, R43, R61). -/
def writeLoc32 (l : Loc) (v : Reg) (s : State) : State :=
  match l with
  | .cmd => issueCommand v s
  | .status => writeStatus v s
  | .src => { s with src := v }
  | .len => { s with len := v }
  | .dst => { s with dst := v }
  | .outlen => s
  | .errcmd => s
  | .wa => { s with wa := v }
  | .wb => { s with wb := v }
  | .stateCol c => { s with st := setBlockCol s.st c (toWord v) }
  | .rk _ => s
  | .mem a => s.writeBytes a (wordBytes (toWord v))
  | .reserved => s

/-- A legal 8-bit write: `MEM[a] <- v[7:0]` (R61), ignored at a reserved offset (R43). -/
def writeLoc8 (l : Loc) (v : Reg) (s : State) : State :=
  match l with
  | .mem a => s.writeBytes a [v.extractLsb' 0 8]
  | .cmd | .status | .src | .len | .dst | .outlen | .errcmd | .wa | .wb
  | .stateCol _ | .rk _ | .reserved => s

/-- HostWrite(off, width, v) (R40). A bus error changes no engine state (R41). -/
def hostWrite (off : BitVec 17) (width : Nat) (v : Reg) (s : State) : State :=
  if busError off width then respond .busError s
  else if width = 8 then respond .written (writeLoc8 (locate s.cfg off) v s)
  else respond .written (writeLoc32 (locate s.cfg off) v s)

/-! ### The lines of a host program -/

/-- The transaction R260 permits inside the hazard window: a 32-bit read of STATUS. -/
def isStatusRead : HostOp → Bool
  | .read off width => decide (off = 0x004) && decide (width = 32)
  | .write _ _ _ | .mask _ | .bnz _ | .bz _ | .reset => false

/-- Is the line a host transaction (R40)? The mask, the branches and reset are not. -/
def isTransaction : HostOp → Bool
  | .read _ _ | .write _ _ _ => true
  | .mask _ | .bnz _ | .bz _ | .reset => false

/-- R260: a transaction inside the window other than a 32-bit read of STATUS. -/
def hazard (op : HostOp) (s : State) : Bool :=
  s.window && isTransaction op && !isStatusRead op

/-- The host's next line, if its program has one. -/
def State.hostOp (s : State) : Option HostOp := s.hostProg[s.hostPc]?

/-- The host takes its line: the next line is the following one unless this one branches, and one
of the host steps before the engine's step has passed (log entry 4). -/
def hostMove (s : State) : State :=
  { s with hostPc := s.hostPc + 1, busyLeft := s.busyLeft - 1 }

/-- The effect of a host line (R40, R42, R99, spec/70_reset_and_hazards.md R250). -/
def hostEffect (op : HostOp) (s : State) : State :=
  match op with
  | .read off width => hostRead off width s
  | .write off width v => hostWrite off width v s
  | .mask m => { s with hostLast := s.hostLast &&& m }
  | .bnz line => if s.hostLast ≠ 0 then { s with hostPc := line } else s
  | .bz line => if s.hostLast = 0 then { s with hostPc := line } else s
  | .reset => resetEngine s

/-- The model's counter advances at the end of a host step (log entry 12). -/
def tick (s : State) : State := { s with ticks := s.ticks + 1 }

/-- One host step. A hazard violation faults (93_implementation_defined.md U2, log entry 6). -/
def hostStep (op : HostOp) (s : State) : Result :=
  if hazard op s then .fault .hazardViolation
  else .next (tick (hostEffect op (hostMove s)))

end Sys2Proof.Machine
end

