-- ==== Sys2Proof/Machine/Cycle.lean ====
section
/-! DEFINITION. The engine's step, and which agent moves next (spec/10_state.md R20, spec/30_encoding.md R92,
spec/20_memory.md R70). -/

namespace Sys2Proof.Machine

/-- R92: the engine performs the word `v` of PEND, then `BUSY <- 0`. -/
def performCommand (v : Reg) (s : State) : Result :=
  match decode v with
  | .ok i => mapNext finishCommand (exec i s)
  | .error _ => .next (finishCommand (raiseError .illegalCmd v s))

/-- The engine takes its step once the BUSY duration has passed; with no host line left nothing can
come before it, and the engine's step is always eventually taken (R262, log entry 4). -/
def State.engineTurn (s : State) : Bool := decide (s.busyLeft = 0) || s.hostOp.isNone

/-- The host's turn: its next line, or nothing to do (spec/60_exceptions.md R239: the engine is idle). -/
def hostTurn (s : State) : Result :=
  match s.hostOp with
  | some op => hostStep op s
  | none => .next s

/-- One step of the machine: the engine's when a command is pending and its time has come, the host's
otherwise. -/
def advance (s : State) : Result :=
  match s.pend with
  | some v => if s.engineTurn then performCommand v s else hostTurn s
  | none => hostTurn s

end Sys2Proof.Machine
end

