-- ==== Sys2Proof/Machine/Step.lean ====
section
/-! DEFINITION. The machine's one step, and how a command word is placed for it. -/

namespace Sys2Proof.Machine

/-- One step (Machine/Cycle.lean). -/
def step (s : State) : Host.Outcome State Fault Refusal := advance s

/-- The state in which the word `w` is the pending command and the engine's step is next: an
accepted CMD write (spec/30_encoding.md R91) with a BUSY duration of zero host steps
(spec/70_reset_and_hazards.md R262). A command is one 32-bit word, numbered as the table numbers it, so
`nbits` adds nothing. Log entry 16. -/
def State.withFetchWord (s : State) (nbits w : Nat) : State :=
  acceptCommand (BitVec.ofNat 32 (w % 2 ^ nbits)) 0 s

end Sys2Proof.Machine
end

