-- ==== Sys2Proof/Machine/HostProgram.lean ====
section
/-! DEFINITION. The host syntax and its pseudo-instructions (spec/30_encoding.md R99, R100). A label names
a line, so a branch holds the line's number; a fragment is written from the number of its first line. -/

namespace Sys2Proof.Machine

/-- A piece of a host program, given the number of its first line. -/
abbrev Fragment := Nat → List HostOp

/-- Fragments one after the other. -/
def Fragment.seq : List Fragment → Fragment
  | [], _ => []
  | f :: fs, n => f n ++ Fragment.seq fs (n + (f n).length)

/-- R22: the offset of MEM byte `a`, 0x10000 + a. DESIGN CHOICE, log entry 20: for a >= 0x10000 that is no
offset of the window (R40) and R99 gives such a line no meaning; here it is taken modulo 2^17, so the line
accesses a register (a = 0x10000 is CMD). -/
def memOffset (a : Nat) : BitVec 17 := BitVec.ofNat 17 (0x10000 + a)

/-- R99: `wr NAME, v`. -/
def wr (off : BitVec 17) (v : Reg) : Fragment := fun _ => [.write off 32 v]

/-- R99: `rd NAME`. -/
def rd (off : BitVec 17) : Fragment := fun _ => [.read off 32]

/-- R99: `wrb MEM+a, v`, for a < 0x10000 (`memOffset`). -/
def wrb (a : Nat) (v : Byte) : Fragment := fun _ => [.write (memOffset a) 8 (v.setWidth 32)]

/-- R99: `rdb MEM+a`, for a < 0x10000 (`memOffset`). -/
def rdb (a : Nat) : Fragment := fun _ => [.read (memOffset a) 8]

/-- R99: `wrw MEM+a, v`, for a < 0x10000 (`memOffset`). -/
def wrw (a : Nat) (v : Reg) : Fragment := fun _ => [.write (memOffset a) 32 v]

/-- R99: `rdw MEM+a`, for a < 0x10000 (`memOffset`). -/
def rdw (a : Nat) : Fragment := fun _ => [.read (memOffset a) 32]

/-- R100: `wait` is `w: rd STATUS ; and 1 ; bnz w`. -/
def wait : Fragment := fun n => [.read 0x004 32, .mask 1, .bnz n]

/-- R100: `cmd X` is `wr CMD, enc(X)` followed by `wait`. -/
def cmd (i : Instr) : Fragment := Fragment.seq [wr 0x000 (encode i), wait]

/-- R100: `chk` is `rd STATUS ; and 0xF0 ; bnz error`, with the line number of `error`. -/
def chk (errorLine : Nat) : Fragment := fun _ => [.read 0x004 32, .mask 0xF0, .bnz errorLine]

/-- R100: `clr` is `wr STATUS, 0x80000000`, which is ERRCLR. -/
def clr : Fragment := wr 0x004 0x80000000

/-- R100: `ld16 MEM+a, h`, four `wrw` lines. -/
def ld16 (a : Nat) (h : Block) : Fragment :=
  Fragment.seq [wrw a (word32 h.c0), wrw (a + 4) (word32 h.c1), wrw (a + 8) (word32 h.c2),
    wrw (a + 12) (word32 h.c3)]

/-- R100: `setkey a`. DESIGN CHOICE, log entry 20: an `a` of more than 32 bits is no value of SRC and is
taken modulo 2^32. -/
def setkey (a : Nat) : Fragment :=
  Fragment.seq [wr 0x008 (BitVec.ofNat 32 a), wr 0x00C 16, cmd .kexp]

/-- R100: `setstate h`, four `wr STATEc` lines. -/
def setstate (h : Block) : Fragment :=
  Fragment.seq [wr 0x030 (word32 h.c0), wr 0x034 (word32 h.c1), wr 0x038 (word32 h.c2),
    wr 0x03C (word32 h.c3)]

/-- A host program starts at line 0. -/
def assemble (f : Fragment) : List HostOp := f 0

/-- The state with a host program loaded from outside (log entry 5). -/
def State.withHostProgram (s : State) (p : List HostOp) : State :=
  { s with hostProg := p, hostPc := 0 }

end Sys2Proof.Machine
end

