-- ==== Sys2Proof/Safety.lean ====
section
/-! DEFINITION. What counts as a safe state and a safe run, and the terms the statements use. -/

namespace Sys2Proof.Machine

/-- The invariant of the machine: what every state reached from reset meets. -/
structure State.Inv (s : State) : Prop where
  /-- The parameters are those R8 allows. -/
  cfgLegal : s.cfg.legal = true
  /-- MEM is in canonical form. -/
  memWf : Memory.wf s.mem
  /-- MEM holds no byte outside `MEM[0..MEM_BYTES-1]` (spec/20_memory.md R60). -/
  memInside : ∀ c ∈ s.mem, c.1 < s.cfg.memBytes
  /-- A pending command lies inside the hazard window (spec/70_reset_and_hazards.md R260). -/
  busyWindow : s.busy = true → s.window = true
  /-- No command is pending while an error is held (spec/30_encoding.md R91, spec/60_exceptions.md R227). -/
  busyNoError : s.busy = true → s.err = .noError
  /-- With KVALID the schedule is the expansion of some 16-byte key (spec/10_state.md R29). -/
  keyHolds : s.kvalid = true → ∃ k : List Byte, k.length = 16 ∧ s.w = expand k

/-- It is the host's turn and its line is `op`: no command is pending, or the BUSY duration has not
passed. -/
def HostMoves (op : HostOp) (s : State) : Prop :=
  s.hostOp = some op ∧ (s.pend = none ∨ s.busyLeft ≠ 0)

/-- It is the engine's turn with the word `v` in PEND: the BUSY duration has passed, or the host has
no line left. -/
def EngineMoves (v : Reg) (s : State) : Prop :=
  s.pend = some v ∧ (s.busyLeft = 0 ∨ s.hostOp = none)

/-- The state after a host transaction that the bus answered with `r` and that changed nothing in the
engine: the host is at its next line. -/
def afterHost (r : Response) (s : State) : State :=
  { s with
    hostPc := s.hostPc + 1
    busyLeft := s.busyLeft - 1
    responses := r :: s.responses
    ticks := s.ticks + 1 }

/-- The state after a command with word `v` failed with `e` (spec/60_exceptions.md R225) where KVALID is
kept: every command but KEXP. -/
def failed (e : ErrCode) (v : Reg) (s : State) : State :=
  { s with err := e, errcmd := v, pend := none }

/-- The opcode map of spec/30_encoding.md R95: opcode number and the command it names, given IMM. -/
def opcodeMap : List (Nat × (BitVec 4 → Instr)) :=
  [(0x00, fun _ => .nop), (0x01, fun _ => .kexp), (0x02, fun _ => .encblk),
   (0x03, fun _ => .decblk), (0x04, fun _ => .encmsg), (0x05, fun _ => .decmsg),
   (0x06, fun _ => .ldstate), (0x07, fun _ => .ststate)] ++
  [(0x10, fun _ => .subbytes), (0x11, fun _ => .invsubbytes), (0x12, fun _ => .shiftrows),
   (0x13, fun _ => .invshiftrows), (0x14, fun _ => .mixcolumns), (0x15, fun _ => .invmixcolumns),
   (0x16, fun imm => .addrk imm)] ++
  [(0x20, fun _ => .rotword), (0x21, fun _ => .subword), (0x22, fun _ => .xorword),
   (0x23, fun imm => .rconxor imm)]

/-- The 40 commands of spec/44_block_cipher.md R185 that compute ENCBLK. -/
def encSequence : List Instr :=
  [.addrk 0] ++
    [1, 2, 3, 4, 5, 6, 7, 8, 9].flatMap (fun r => [.subbytes, .shiftrows, .mixcolumns, .addrk r]) ++
    [.subbytes, .shiftrows, .addrk 10]

/-- The 40 commands of spec/44_block_cipher.md R185 that compute DECBLK. -/
def decSequence : List Instr :=
  [.addrk 10] ++
    [9, 8, 7, 6, 5, 4, 3, 2, 1].flatMap
      (fun r => [.invshiftrows, .invsubbytes, .addrk r, .invmixcolumns]) ++
    [.invshiftrows, .invsubbytes, .addrk 0]

/-- The meanings of a list of commands, one after the other. -/
def execAll : List Instr → State → Result
  | [], s => .next s
  | i :: is, s =>
    match exec i s with
    | .next t => execAll is t
    | .fault r => .fault r
    | .refused r => .refused r

/-- A run of `n` steps is safe when no step faults or refuses. -/
def SafeRun (n : Nat) (s : State) : Prop := ∃ t, Sys2Proof.core.run n s = .next t

end Sys2Proof.Machine
end

