-- ==== Sys2Proof/Certificates/Slice0/Obligations.lean ====
section
/-! DEFINITION. The statements for the provers, from the numbered rules of spec/. -/

open Sys2Proof Sys2Proof.Machine

/-! ### Encoding (spec/30_encoding.md) -/

/-- R94, R95, R97, R98: a word decodes to a command exactly when it is the one word of that
well-formed command. Decode and encode agree on every word and every operand value. -/
def Obligations.DecodeEncodeAgree : Prop :=
  ∀ (v : Reg) (i : Instr), decode v = .ok i ↔ i.wf = true ∧ encode i = v

/-- R94: Decode(v) is Illegal exactly when one of (a) to (e) holds, and otherwise it is the command the
opcode names (R95), with IMM as its operand. -/
def Obligations.DecodeIllegalExactly : Prop :=
  (∀ v : Reg, (∃ e, decode v = .error e) ↔
    (v.toNat / 4096 ≠ 0 ∨
      v.toNat % 256 ∉ opcodeMap.map Prod.fst ∨
      (v.toNat % 256 = 0x16 ∧ 10 < v.toNat / 256 % 16) ∨
      (v.toNat % 256 = 0x23 ∧ (v.toNat / 256 % 16 = 0 ∨ 10 < v.toNat / 256 % 16)) ∨
      (v.toNat % 256 ≠ 0x16 ∧ v.toNat % 256 ≠ 0x23 ∧ v.toNat / 256 % 16 ≠ 0))) ∧
  ∀ (v : Reg) (i : Instr), decode v = .ok i →
    ∃ p ∈ opcodeMap, p.1 = v.toNat % 256 ∧ i = p.2 (BitVec.ofNat 4 (v.toNat / 256 % 16))

/-- R95, R98 and 95_test_vectors.md V11: a few words and what they stand for. -/
def Obligations.KnownWordsDecode : Prop :=
  decode 0x00000000 = .ok .nop ∧ decode 0x00000001 = .ok .kexp ∧ decode 0x00000002 = .ok .encblk ∧
  decode 0x00000005 = .ok .decmsg ∧ decode 0x00000007 = .ok .ststate ∧
  decode 0x00000013 = .ok .invshiftrows ∧ decode 0x00000A16 = .ok (.addrk 10) ∧
  decode 0x00000123 = .ok (.rconxor 1) ∧ decode 0x00000022 = .ok .xorword ∧
  decode 0x00000B16 = .error .roundIndex ∧ decode 0x00000023 = .error .constantIndex ∧
  decode 0x80000002 = .error .reservedBits ∧ decode 0x00000100 = .error .immediateNotZero ∧
  decode 0x00000017 = .error .unassignedOpcode

/-! ### The step (spec/30_encoding.md R91, R92) -/

/-- R92: on the engine's turn a step performs PEND. A legal word runs its command and then BUSY <- 0; an
illegal one raises ILLEGAL_CMD, which changes ERR, ERRCMD and BUSY only. (`ticks` is the model's own
counter, log entry 12.) -/
def Obligations.StepPerformsPend : Prop :=
  ∀ (s : State) (v : Reg), EngineMoves v s →
    (∀ i, decode v = .ok i → ∃ t, exec i s = .next t ∧
      step s = .next { t with pend := none, ticks := t.ticks + 1 }) ∧
    (∀ e, decode v = .error e →
      step s = .next { failed .illegalCmd v s with ticks := s.ticks + 1 })

/-- R20, R40: on the host's turn a step is the host's line. A line outside the hazard window answers a
next state in which the host has moved to the following line or to a branch's line, a register or MEM
access has been answered by the bus, and the parameters and the program are unchanged. -/
def Obligations.StepTakesHostLine : Prop :=
  ∀ (s : State) (op : HostOp), HostMoves op s → s.window = false →
    ∃ t, step s = .next t ∧ t.cfg = s.cfg ∧ t.hostProg = s.hostProg ∧
      (t.hostPc = s.hostPc + 1 ∨ ∃ line, (op = .bnz line ∨ op = .bz line) ∧ t.hostPc = line) ∧
      (isTransaction op = true → ∃ r, t.responses = r :: s.responses) ∧
      (isTransaction op = false → t.responses = s.responses)

/-- R239: when BUSY = 0 the engine is idle until the next CMD write; with no host line left the state
does not change. -/
def Obligations.IdleStepChangesNothing : Prop :=
  ∀ s : State, s.pend = none → s.hostOp = none → step s = .next s

/-- R220, R224, R92: no command ever stops the machine. Every command answers a next state, and it
leaves ERR as it was or sets it to one of the error codes of R221. -/
def Obligations.EveryCommandCompletes : Prop :=
  ∀ (i : Instr) (s : State), ∃ t, exec i s = .next t ∧
    (t.err = s.err ∨ (t.err ≠ .noError ∧ t.errcmd = encode i ∧ t.pend = none))

/-- R220: the machine never refuses, and it stops only where R260 calls the effect unspecified: on a host
transaction inside the hazard window other than a 32-bit read of STATUS. That this is a fault is the
model's choice, log entry 6 (93_implementation_defined.md U2). -/
def Obligations.OnlyHazardsStop : Prop :=
  (∀ (s : State) (r : Refusal), step s ≠ .refused r) ∧
  ∀ (s : State) (r : Fault), step s = .fault r ↔
    (r = .hazardViolation ∧ s.window = true ∧
      ∃ op, HostMoves op s ∧ isTransaction op = true ∧ op ≠ .read 0x004 32)

/-! ### The invariant -/

/-- The invariant of Safety.lean holds at reset, whatever the legal parameters. -/
def Obligations.InvAtReset : Prop :=
  State.reset.Inv ∧ ∀ c : Config, c.legal = true → (State.resetWith c).Inv

/-- R29, R33, R60, R91, R227: every step keeps the invariant: legal parameters, MEM in canonical form and
inside its bound, a pending command only inside the hazard window and without a held error, KVALID only
with an expanded key in W. -/
def Obligations.InvKeptByStep : Prop :=
  ∀ s t : State, s.Inv → step s = .next t → t.Inv

/-! ### The host's registers (spec/10_state.md) -/

/-- R91: issue. With BUSY = 0 a CMD write is discarded without effect while ERR != 0, ERRCMD included;
otherwise it becomes PEND and BUSY is 1. (`busyLeft` is the model's own, log entry 4.) -/
def Obligations.CommandIssue : Prop :=
  ∀ (s : State) (v : Reg), s.hostOp = some (.write 0x000 32 v) → s.pend = none → s.window = false →
    (s.err ≠ .noError → step s = .next (afterHost .written s)) ∧
    (s.err = .noError → ∃ n, step s =
      .next { afterHost .written s with pend := some v, window := true, busyLeft := n })

/-- R24, R33, R72: a 32-bit read of STATUS returns ERR<<4 | KVALID<<1 | BUSY, is permitted at any time,
and changes nothing in the engine; the hazard window closes when it returns BUSY = 0. The codes are those
of R221, and 7..15 do not occur. -/
def Obligations.StatusReadValue : Prop :=
  (∀ s : State, HostMoves (.read 0x004 32) s → ∃ v : Reg,
    v.toNat = 16 * s.err.code.toNat + (if s.kvalid = true then 2 else 0) +
      (if s.pend = none then 0 else 1) ∧
    step s = .next { afterHost (.data32 v) s with
      hostLast := v, window := s.window && s.pend.isSome }) ∧
  (∀ e : ErrCode, e.code.toNat ≤ 6) ∧
  [ErrCode.noError, .illegalCmd, .configError, .noKey, .memRange, .lenAlign, .padRange].map
    (fun e => e.code.toNat) = [0, 1, 2, 3, 4, 5, 6]

/-- R45: with BUSY = 0 a STATUS write with bit 31 set clears ERR and nothing else; without it the write
has no effect. -/
def Obligations.StatusWriteClearsErr : Prop :=
  ∀ (s : State) (v : Reg), s.hostOp = some (.write 0x004 32 v) → s.pend = none → s.window = false →
    (v.getLsbD 31 = true → step s = .next (afterHost .written { s with err := .noError })) ∧
    (v.getLsbD 31 = false → step s = .next (afterHost .written s))

/-- R22 to R31, R42, R43: what a legal 32-bit read below 0x10000 returns, and that it changes nothing in
the engine. STATUS is `StatusReadValue`. -/
def Obligations.RegisterReadMap : Prop :=
  ∀ (s : State) (off : BitVec 17), s.hostOp = some (.read off 32) → s.pend = none →
    s.window = false → off.toNat < 0x10000 → off.toNat % 4 = 0 →
    ∃ v : Reg, step s = .next { afterHost (.data32 v) s with hostLast := v } ∧
      (off = 0x000 → v = 0) ∧ (off = 0x008 → v = s.src) ∧ (off = 0x00C → v = s.len) ∧
      (off = 0x010 → v = s.dst) ∧ (off = 0x014 → v = s.outlen) ∧ (off = 0x018 → v = s.errcmd) ∧
      (off = 0x01C → v = s.wa) ∧ (off = 0x020 → v = s.wb) ∧
      (∀ c : Fin 4, off.toNat = 0x030 + 4 * c.val →
        v.toNat = (blockEntry s.st 0 c).toNat * 2 ^ 24 + (blockEntry s.st 1 c).toNat * 2 ^ 16 +
          (blockEntry s.st 2 c).toNat * 2 ^ 8 + (blockEntry s.st 3 c).toNat) ∧
      (∀ i : Fin 44, off.toNat = 0x100 + 4 * i.val →
        v.toNat = s.w[i].b0.toNat * 2 ^ 24 + s.w[i].b1.toNat * 2 ^ 16 +
          s.w[i].b2.toNat * 2 ^ 8 + s.w[i].b3.toNat) ∧
      ((0x024 ≤ off.toNat ∧ off.toNat < 0x030) ∨ (0x040 ≤ off.toNat ∧ off.toNat < 0x100) ∨
        0x1B0 ≤ off.toNat → v = 0)

/-- R22, R25 to R31, R42, R43: what a legal 32-bit write below 0x10000 changes, at any offset but CMD and
STATUS. An RW register is replaced in whole, a STATEc write changes column c only, and a write to a
read-only register or a reserved offset is ignored. -/
def Obligations.RegisterWriteMap : Prop :=
  ∀ (s : State) (off : BitVec 17) (v : Reg), s.hostOp = some (.write off 32 v) → s.pend = none →
    s.window = false → off.toNat < 0x10000 → off.toNat % 4 = 0 → off ≠ 0x000 → off ≠ 0x004 →
    ∃ t : State, step s = .next (afterHost .written t) ∧
      t = { s with src := t.src, len := t.len, dst := t.dst, wa := t.wa, wb := t.wb, st := t.st } ∧
      t.src = (if off = 0x008 then v else s.src) ∧ t.len = (if off = 0x00C then v else s.len) ∧
      t.dst = (if off = 0x010 then v else s.dst) ∧ t.wa = (if off = 0x01C then v else s.wa) ∧
      t.wb = (if off = 0x020 then v else s.wb) ∧
      ∀ r c : Fin 4, blockEntry t.st r c =
        if off.toNat = 0x030 + 4 * c.val then v.extractLsb' (24 - 8 * r.val) 8
        else blockEntry s.st r c

/-- R230: a bus error is answered by an error response and changes no engine state; a read that takes
one returns no data. That the host then goes on to its next line is the model's choice, log entry 7. -/
def Obligations.BusErrorChangesNothing : Prop :=
  ∀ (s : State) (off : BitVec 17) (width : Nat) (v : Reg), s.window = false →
    ((width ≠ 8 ∧ width ≠ 32) ∨ (width = 32 ∧ off.toNat % 4 ≠ 0) ∨
      (width = 8 ∧ off.toNat < 0x10000)) →
    (HostMoves (.read off width) s → step s = .next (afterHost .busError s)) ∧
    (HostMoves (.write off width v) s → step s = .next (afterHost .busError s))

/-- R61, R62: host access to MEM[a], 8-bit anywhere and 32-bit 4-aligned, the lowest address in bits
31:24; every other byte of MEM keeps its value, and from MEM_BYTES on the window reads 0 and ignores
writes. What an unwritten byte reads as is the model's `State.readByte`, log entry 2. -/
def Obligations.HostMemAccess : Prop :=
  ∀ (s : State) (off : BitVec 17) (a : Nat) (v : Reg), s.pend = none → s.window = false →
    off.toNat = 0x10000 + a →
    (a < s.cfg.memBytes →
      (s.hostOp = some (.read off 8) → step s = .next
        { afterHost (.data8 (s.readByte a)) s with hostLast := (s.readByte a).setWidth 32 }) ∧
      (s.hostOp = some (.write off 8 v) → ∃ m : Memory,
        step s = .next (afterHost .written { s with mem := m }) ∧
        Memory.read m a = some (v.extractLsb' 0 8) ∧
        ∀ b, b ≠ a → Memory.read m b = Memory.read s.mem b)) ∧
    (a < s.cfg.memBytes → a % 4 = 0 →
      (s.hostOp = some (.read off 32) → ∃ x : Reg,
        x.toNat = (s.readByte a).toNat * 2 ^ 24 + (s.readByte (a + 1)).toNat * 2 ^ 16 +
          (s.readByte (a + 2)).toNat * 2 ^ 8 + (s.readByte (a + 3)).toNat ∧
        step s = .next { afterHost (.data32 x) s with hostLast := x }) ∧
      (s.hostOp = some (.write off 32 v) → ∃ m : Memory,
        step s = .next (afterHost .written { s with mem := m }) ∧
        (∀ k < 4, Memory.read m (a + k) = some (v.extractLsb' (24 - 8 * k) 8)) ∧
        ∀ b, b < a ∨ a + 4 ≤ b → Memory.read m b = Memory.read s.mem b)) ∧
    (a % 4 ≠ 0 →
      (s.hostOp = some (.read off 32) → step s = .next (afterHost .busError s)) ∧
      (s.hostOp = some (.write off 32 v) → step s = .next (afterHost .busError s))) ∧
    (s.cfg.memBytes ≤ a → a % 4 = 0 →
      (s.hostOp = some (.read off 32) →
        step s = .next { afterHost (.data32 0) s with hostLast := 0 }) ∧
      (s.hostOp = some (.write off 32 v) → step s = .next (afterHost .written s))) ∧
    (s.cfg.memBytes ≤ a →
      (s.hostOp = some (.read off 8) →
        step s = .next { afterHost (.data8 0) s with hostLast := 0 }) ∧
      (s.hostOp = some (.write off 8 v) → step s = .next (afterHost .written s)))

/-- R260, R72: the hazard window opens only with an accepted CMD write, and once open it stays open until
a STATUS read returns BUSY = 0 or the platform resets the engine. -/
def Obligations.HazardWindow : Prop :=
  ∀ s t : State, step s = .next t →
    (s.window = false → t.window = true → ∃ v off, HostMoves (.write off 32 v) s ∧ off = 0x000 ∧
      s.err = .noError ∧ t.pend = some v) ∧
    (s.window = true → t.window = false →
      HostMoves .reset s ∨ (HostMoves (.read 0x004 32) s ∧ s.pend = none))

/-- R250: the values reset gives, both in the state right after reset and when the platform resets the
engine at a host line, BUSY or not. (The unspecified contents are log entries 1 and 2.) -/
def Obligations.ResetValues : Prop :=
  (∀ c : Config, (State.resetWith c).status = 0 ∧ (State.resetWith c).pend = none ∧
    (State.resetWith c).src = 0 ∧ (State.resetWith c).len = 0 ∧ (State.resetWith c).dst = 0 ∧
    (State.resetWith c).outlen = 0 ∧ (State.resetWith c).errcmd = 0) ∧
  ∀ s : State, HostMoves .reset s → ∃ t, step s = .next t ∧ t.status = 0 ∧ t.pend = none ∧
    t.kvalid = false ∧ t.err = .noError ∧ t.src = 0 ∧ t.len = 0 ∧ t.dst = 0 ∧ t.outlen = 0 ∧
    t.errcmd = 0 ∧ t.cfg = s.cfg

/-- R99: `and m` masks the last read value, `bnz` branches if it was nonzero, `bz` if it was zero; none
touches the engine, and a host step of the BUSY duration passes (log entry 4). -/
def Obligations.HostNotationLines : Prop :=
  ∀ (s : State) (m : Reg) (line : Nat),
    (HostMoves (.mask m) s → step s = .next { s with
      hostLast := s.hostLast &&& m, hostPc := s.hostPc + 1, busyLeft := s.busyLeft - 1,
      ticks := s.ticks + 1 }) ∧
    (HostMoves (.bnz line) s → step s = .next { s with
      hostPc := if s.hostLast = 0 then s.hostPc + 1 else line, busyLeft := s.busyLeft - 1,
      ticks := s.ticks + 1 }) ∧
    (HostMoves (.bz line) s → step s = .next { s with
      hostPc := if s.hostLast = 0 then line else s.hostPc + 1, busyLeft := s.busyLeft - 1,
      ticks := s.ticks + 1 })

/-- R100, R262: a `wait` loop terminates, whatever command is pending and however long BUSY lasts. From
its first line the host passes it within `busyLeft + 6` steps, with BUSY = 0 and the window closed. -/
def Obligations.WaitLoopTerminates : Prop :=
  ∀ s : State, s.hostProg[s.hostPc]? = some (.read 0x004 32) →
    s.hostProg[s.hostPc + 1]? = some (.mask 1) → s.hostProg[s.hostPc + 2]? = some (.bnz s.hostPc) →
    ∃ n t, n ≤ s.busyLeft + 6 ∧ Sys2Proof.core.run n s = .next t ∧ t.hostPc = s.hostPc + 3 ∧
      t.pend = none ∧ t.window = false

/-! ### Engine errors (spec/60_exceptions.md) -/

/-- R225, R224, R96: error entry. A command that raises an error writes ERR, ERRCMD (its word) and BUSY, clears
KVALID if it is KEXP and the error is CONFIG_ERROR or MEM_RANGE (no other error of KEXP's word exists),
and changes nothing else; and so does an illegal word. (`ticks` is the model's own, log entry 12, and so is
whose turn it is, log entry 4.) -/
def Obligations.ErrorEntry : Prop :=
  (∀ (i : Instr) (s t : State), i.wf = true → s.err = .noError → exec i s = .next t →
    t.err ≠ .noError →
    (i ≠ .kexp → t = failed t.err (encode i) s) ∧
    (i = .kexp → t = { failed t.err (encode i) s with kvalid := false } ∧
      (t.err = .configError ∨ t.err = .memRange))) ∧
  ∀ (s : State) (v : Reg) (e : Illegal), EngineMoves v s → decode v = .error e →
    step s = .next { failed .illegalCmd v s with ticks := s.ticks + 1 }

/-- R224, R226: which error a command raises, cause by cause and in the order of the checks; and that no
other is raised. `D` stands for the decrypted bytes of DECMSG. -/
def Obligations.ErrorCauses : Prop :=
  ∀ (i : Instr) (s t : State), i.wf = true → s.err = .noError → exec i s = .next t →
    (t.err = .configError ↔ i = .kexp ∧ s.len ≠ 16) ∧
    (t.err = .noKey ↔ s.kvalid = false ∧
      ((∃ r, i = .addrk r) ∨ i = .encblk ∨ i = .decblk ∨ i = .encmsg ∨ i = .decmsg)) ∧
    (t.err = .lenAlign ↔ i = .decmsg ∧ s.kvalid = true ∧ s.len.toNat % 16 ≠ 0) ∧
    (t.err = .padRange ↔ i = .decmsg ∧ s.kvalid = true ∧ s.len.toNat % 16 = 0 ∧
      s.src.toNat + s.len.toNat ≤ s.cfg.memBytes ∧
      (s.len = 0 ∨ ∃ b, (decryptBlocks s.w (s.readBytes s.src.toNat s.len.toNat)).getLast? = some b ∧
        s.len.toNat < b.toNat)) ∧
    (t.err = .memRange ↔
      (i = .kexp ∧ s.len = 16 ∧ s.cfg.memBytes < s.src.toNat + 16) ∨
      (i = .ldstate ∧ s.cfg.memBytes < s.src.toNat + 16) ∨
      (i = .ststate ∧ s.cfg.memBytes < s.dst.toNat + 16) ∨
      (i = .encmsg ∧ s.kvalid = true ∧ (s.cfg.memBytes < s.src.toNat + s.len.toNat ∨
        s.cfg.memBytes < s.dst.toNat + 16 * (s.len.toNat / 16 + 1))) ∨
      (i = .decmsg ∧ s.kvalid = true ∧ s.len.toNat % 16 = 0 ∧
        (s.cfg.memBytes < s.src.toNat + s.len.toNat ∨
          ∃ b, (decryptBlocks s.w (s.readBytes s.src.toNat s.len.toNat)).getLast? = some b ∧
            b.toNat ≤ s.len.toNat ∧ s.cfg.memBytes < s.dst.toNat + (s.len.toNat - b.toNat)))) ∧
    t.err ≠ .illegalCmd

/-- R32: ERR never changes from one nonzero value to another; it returns to 0 only by ERRCLR or reset, and
it leaves 0 only when the engine performs a command. -/
def Obligations.ErrIsSticky : Prop :=
  ∀ s t : State, s.Inv → step s = .next t →
    (s.err ≠ .noError → t.err ≠ .noError → t.err = s.err) ∧
    (s.err ≠ .noError → t.err = .noError → HostMoves .reset s ∨
      ∃ v : Reg, HostMoves (.write 0x004 32 v) s ∧ v.getLsbD 31 = true) ∧
    (s.err = .noError → t.err ≠ .noError → ∃ v, EngineMoves v s)

/-- R31: ERRCMD is written only when a command fails, and then receives that command's word; ERRCLR and
host writes leave it. (Reset sets it to 0, R250.) -/
def Obligations.ErrcmdOnlyOnFailure : Prop :=
  ∀ s t : State, s.Inv → step s = .next t →
    (t.errcmd ≠ s.errcmd → (∃ v, EngineMoves v s ∧ t.err ≠ .noError) ∨ HostMoves .reset s) ∧
    (∀ v, EngineMoves v s → t.err ≠ .noError → t.errcmd = v)

/-- R25, R27, R28, R30, R200 and the operand lists of the command rules: which command may write which
state. SRC, LEN, DST and WB are written by none; W only by a KEXP that succeeds; OUTLEN only by a message
command that succeeds; KVALID only by KEXP; WA, S and MEM only by their own families. -/
def Obligations.WhoWritesWhat : Prop :=
  ∀ (i : Instr) (s t : State), exec i s = .next t →
    t.src = s.src ∧ t.len = s.len ∧ t.dst = s.dst ∧ t.wb = s.wb ∧ t.cfg = s.cfg ∧
    (t.w ≠ s.w → i = .kexp ∧ t.kvalid = true) ∧
    (t.kvalid ≠ s.kvalid → i = .kexp) ∧
    (t.outlen ≠ s.outlen → (i = .encmsg ∨ i = .decmsg) ∧ t.err = s.err) ∧
    (t.wa ≠ s.wa → i = .rotword ∨ i = .subword ∨ i = .xorword ∨ ∃ j, i = .rconxor j) ∧
    (t.mem ≠ s.mem → i = .ststate ∨ i = .encmsg ∨ i = .decmsg) ∧
    (t.st ≠ s.st → i = .subbytes ∨ i = .invsubbytes ∨ i = .shiftrows ∨ i = .invshiftrows ∨
      i = .mixcolumns ∨ i = .invmixcolumns ∨ (∃ r, i = .addrk r) ∨ i = .ldstate ∨ i = .encblk ∨
      i = .decblk)

/-- R28: W changes only in the engine's step that performs KEXP with LEN = 16 and the key in range, and
then all of it is the expansion of the key; no host write changes it. (Reset: log entry 1.) -/
def Obligations.ScheduleOnlyByKexp : Prop :=
  ∀ s t : State, step s = .next t → t.w ≠ s.w →
    (EngineMoves 0x00000001 s ∧ s.len = 16 ∧ s.src.toNat + 16 ≤ s.cfg.memBytes ∧
      t.w = expand (s.readBytes s.src.toNat 16) ∧ t.kvalid = true) ∨ HostMoves .reset s

/-! ### Engine control and Word commands (spec/46_engine_control.md, spec/41_word_ops.md) -/

/-- R210: NOP changes no state apart from the BUSY cycle. -/
def Obligations.NopOnlyEndsBusy : Prop :=
  (∀ s : State, exec .nop s = .next s) ∧
  ∀ s : State, EngineMoves 0x00000000 s →
    step s = .next { s with pend := none, ticks := s.ticks + 1 }

/-- R141: ROTWORD is `WA <- WA[23:0] ++ WA[31:24]`, changes nothing else, and four of them restore WA. -/
def Obligations.RotwordRotatesLeft8 : Prop :=
  (∀ s : State, exec .rotword s = .next { s with wa := s.wa.extractLsb' 0 24 ++ s.wa.extractLsb' 24 8 }) ∧
  (∀ s : State, exec .rotword s = .next { s with wa := s.wa.rotateLeft 8 }) ∧
  ∀ s : State, execAll [.rotword, .rotword, .rotword, .rotword] s = .next s

/-- R142, R140: SUBWORD substitutes each byte of WA through the S-box and changes nothing else; it is
a bijection on WA. -/
def Obligations.SubwordSubstitutesBytes : Prop :=
  (∀ s : State, ∃ v : Reg, exec .subword s = .next { s with wa := v } ∧
    ∀ k < 4, v.extractLsb' (8 * k) 8 = sbox (s.wa.extractLsb' (8 * k) 8)) ∧
  ∀ s t u : State, exec .subword s = .next u → exec .subword t = .next u → s = t

/-- R143: XORWORD is `WA <- WA xor WB`, changes nothing else, and running it twice restores WA. -/
def Obligations.XorwordXors : Prop :=
  (∀ s : State, exec .xorword s = .next { s with wa := s.wa ^^^ s.wb }) ∧
  ∀ s : State, execAll [.xorword, .xorword] s = .next s

/-- R144, R126: RCONXOR j, for j = 1..10, is `WA <- WA xor (rc(j) << 24)` with the source's constants, changes
nothing else, and twice restores WA; the words with j = 0 or j > 10 are illegal. -/
def Obligations.RconxorXorsConstant : Prop :=
  (∀ (s : State) (j : BitVec 4) (c : Nat), 1 ≤ j.toNat → j.toNat ≤ 10 →
    [1, 2, 4, 8, 16, 32, 64, 128, 27, 54][j.toNat - 1]? = some c →
    exec (.rconxor j) s = .next { s with wa := s.wa ^^^ (BitVec.ofNat 32 c <<< 24) } ∧
    execAll [.rconxor j, .rconxor j] s = .next s) ∧
  ∀ j : BitVec 4, (j.toNat = 0 ∨ 10 < j.toNat) →
    decode (0x00000023 ||| (j.setWidth 32 <<< 8)) = .error .constantIndex

/-! ### Field and S-box (spec/40_field_and_sbox.md) -/

/-- R123: the field product is commutative and associative, distributes over xor, has 0x01 as identity and
0x00 as zero, and expands over the constants of the column mixes as listed, with the rule's examples; and it
is the rule's loop over k = 0..7, with `x = (p, a)`. -/
def Obligations.FieldProductLaws : Prop :=
  (∀ a b : Byte, mul a b = ([0, 1, 2, 3, 4, 5, 6, 7].foldl (fun (x : Byte × Byte) (k : Nat) =>
    (if b.getLsbD k = true then x.1 ^^^ x.2 else x.1, xtime x.2)) (0x00, a)).1) ∧
  (∀ a b : Byte, mul a b = mul b a) ∧ (∀ a b c : Byte, mul (mul a b) c = mul a (mul b c)) ∧
  (∀ a b c : Byte, mul a (b ^^^ c) = mul a b ^^^ mul a c) ∧ (∀ a : Byte, mul a 0x01 = a) ∧
  (∀ a : Byte, mul a 0x00 = 0x00) ∧ (∀ a : Byte, mul a 0x02 = xtime a) ∧
  (∀ a : Byte, mul a 0x03 = xtime a ^^^ a) ∧
  (∀ a : Byte, mul a 0x09 = xtime (xtime (xtime a)) ^^^ a) ∧
  (∀ a : Byte, mul a 0x0b = xtime (xtime (xtime a)) ^^^ xtime a ^^^ a) ∧
  (∀ a : Byte, mul a 0x0d = xtime (xtime (xtime a)) ^^^ xtime (xtime a) ^^^ a) ∧
  (∀ a : Byte, mul a 0x0e = xtime (xtime (xtime a)) ^^^ xtime (xtime a) ^^^ xtime a) ∧
  mul 0x57 0x83 = 0xc1 ∧ mul 0x57 0x13 = 0xfe

/-- R124, R125: the S-box table is the algebraic one (the inverse in GF(2^8), 0 for 0, then the affine
map), and InvSbox is its inverse. -/
def Obligations.SboxIsAlgebraic : Prop :=
  (∀ x : Byte, ∃ y : Byte, (x = 0 → y = 0) ∧ (x ≠ 0 → mul x y = 0x01) ∧
    ∀ i < 8, (sbox x).getLsbD i = (y.getLsbD i ^^ y.getLsbD ((i + 4) % 8) ^^
      y.getLsbD ((i + 5) % 8) ^^ y.getLsbD ((i + 6) % 8) ^^ y.getLsbD ((i + 7) % 8) ^^
      (0x63 : Byte).getLsbD i)) ∧
  ∀ x : Byte, invSbox (sbox x) = x ∧ sbox (invSbox x) = x

/-! ### StateArray commands (spec/42_state_ops.md) -/

/-- R151, R152: SUBBYTES and INVSUBBYTES substitute every byte of S through the S-box and the inverse S-box,
and change nothing else. -/
def Obligations.SubBytesCommands : Prop :=
  ∀ s : State,
    (∃ t, exec .subbytes s = .next { s with st := t } ∧
      ∀ r c, blockEntry t r c = sbox (blockEntry s.st r c)) ∧
    (∃ t, exec .invsubbytes s = .next { s with st := t } ∧
      ∀ r c, blockEntry t r c = invSbox (blockEntry s.st r c))

/-- R153, R154: SHIFTROWS is `s'[r][c] = s[r][(c + r) mod 4]` and INVSHIFTROWS is
`s'[r][c] = s[r][(c + 4 - r) mod 4]`; they change nothing else; four SHIFTROWS restore S, and three
SHIFTROWS are one INVSHIFTROWS. (Sums of `Fin 4` are mod 4.) -/
def Obligations.ShiftRowsCommands : Prop :=
  ∀ s : State,
    (∃ t, exec .shiftrows s = .next { s with st := t } ∧
      ∀ r c : Fin 4, blockEntry t r c = blockEntry s.st r (c + r)) ∧
    (∃ t, exec .invshiftrows s = .next { s with st := t } ∧
      ∀ r c : Fin 4, blockEntry t r c = blockEntry s.st r (c - r)) ∧
    execAll [.shiftrows, .shiftrows, .shiftrows, .shiftrows] s = .next s ∧
    execAll [.shiftrows, .shiftrows, .shiftrows] s = exec .invshiftrows s

/-- R155, R156, R150: MIXCOLUMNS and INVMIXCOLUMNS are `s'[r][c] = xor over k of mul(M[(k - r) mod 4], s[k][c])`
with M = (02, 03, 01, 01) and (0e, 0b, 0d, 09); they change nothing else. (Differences of `Fin 4` are mod 4.) -/
def Obligations.MixColumnsCommands : Prop :=
  ∀ s : State,
    (∃ t, exec .mixcolumns s = .next { s with st := t } ∧ ∀ r c : Fin 4, blockEntry t r c =
      mul (([0x02, 0x03, 0x01, 0x01] : List Byte)[(0 - r).val]!) (blockEntry s.st 0 c) ^^^
      mul (([0x02, 0x03, 0x01, 0x01] : List Byte)[(1 - r).val]!) (blockEntry s.st 1 c) ^^^
      mul (([0x02, 0x03, 0x01, 0x01] : List Byte)[(2 - r).val]!) (blockEntry s.st 2 c) ^^^
      mul (([0x02, 0x03, 0x01, 0x01] : List Byte)[(3 - r).val]!) (blockEntry s.st 3 c)) ∧
    (∃ t, exec .invmixcolumns s = .next { s with st := t } ∧ ∀ r c : Fin 4, blockEntry t r c =
      mul (([0x0e, 0x0b, 0x0d, 0x09] : List Byte)[(0 - r).val]!) (blockEntry s.st 0 c) ^^^
      mul (([0x0e, 0x0b, 0x0d, 0x09] : List Byte)[(1 - r).val]!) (blockEntry s.st 1 c) ^^^
      mul (([0x0e, 0x0b, 0x0d, 0x09] : List Byte)[(2 - r).val]!) (blockEntry s.st 2 c) ^^^
      mul (([0x0e, 0x0b, 0x0d, 0x09] : List Byte)[(3 - r).val]!) (blockEntry s.st 3 c))

/-- R157: ADDRK r, for r = 0..10. With KVALID = 1 it xors byte i of W[4r + c] into `s[i][c]` and changes
nothing else, and twice restores S; with KVALID = 0 it raises NO_KEY. -/
def Obligations.AddrkCommand : Prop :=
  ∀ (s : State) (r : Fin 11),
    (s.kvalid = true →
      (∃ t, exec (.addrk (BitVec.ofNat 4 r.val)) s = .next { s with st := t } ∧
        ∀ i c : Fin 4, blockEntry t i c =
          blockEntry s.st i c ^^^ wordByte (s.w[4 * r.val + c.val]) i) ∧
      execAll [.addrk (BitVec.ofNat 4 r.val), .addrk (BitVec.ofNat 4 r.val)] s = .next s) ∧
    (s.kvalid = false → exec (.addrk (BitVec.ofNat 4 r.val)) s =
      .next (failed .noKey (0x00000016 ||| (BitVec.ofNat 32 r.val <<< 8)) s))

/-- R158: LDSTATE loads `S[i] <- MEM[SRC + i]` for i = 0..15 and changes nothing else, all of MEM included;
MEM_RANGE if SRC + 16 > MEM_BYTES. -/
def Obligations.LdstateCommand : Prop :=
  ∀ s : State,
    (s.src.toNat + 16 ≤ s.cfg.memBytes →
      ∃ t, exec .ldstate s = .next { s with st := t } ∧
        ∀ r c : Fin 4, blockEntry t r c = s.readByte (s.src.toNat + (r.val + 4 * c.val))) ∧
    (s.cfg.memBytes < s.src.toNat + 16 → exec .ldstate s = .next (failed .memRange 0x00000006 s))

/-- R159: STSTATE stores `MEM[DST + i] <- S[i]` for i = 0..15; every other byte of MEM and all else is
unchanged; MEM_RANGE if DST + 16 > MEM_BYTES. -/
def Obligations.StstateCommand : Prop :=
  ∀ s : State,
    (s.dst.toNat + 16 ≤ s.cfg.memBytes →
      ∃ m : Memory, exec .ststate s = .next { s with mem := m } ∧
        (∀ r c : Fin 4,
          Memory.read m (s.dst.toNat + (r.val + 4 * c.val)) = some (blockEntry s.st r c)) ∧
        ∀ a, a < s.dst.toNat ∨ s.dst.toNat + 16 ≤ a → Memory.read m a = Memory.read s.mem a) ∧
    (s.cfg.memBytes < s.dst.toNat + 16 → exec .ststate s = .next (failed .memRange 0x00000007 s))

/-- R159, R26: "convertible losslessly": LDSTATE at a and then STSTATE at a leave every written byte of
MEM as it was, and STSTATE at a and then LDSTATE at a leave S as it was. -/
def Obligations.LoadStoreLossless : Prop :=
  ∀ s : State, s.src = s.dst → s.src.toNat + 16 ≤ s.cfg.memBytes →
    (∃ t, execAll [.ldstate, .ststate] s = .next t ∧
      ∀ a b, Memory.read s.mem a = some b → Memory.read t.mem a = some b) ∧
    (∃ t, execAll [.ststate, .ldstate] s = .next t ∧ t.st = s.st)

/-- R160: the inverse pairs, in both orders, and the commuting of the byte substitutions with the
row shifts. -/
def Obligations.InversePairs : Prop :=
  ∀ s k : Block,
    (invSubBytes (subBytes s) = s ∧ subBytes (invSubBytes s) = s) ∧
    (invShiftRows (shiftRows s) = s ∧ shiftRows (invShiftRows s) = s) ∧
    (invMixColumns (mixColumns s) = s ∧ mixColumns (invMixColumns s) = s) ∧
    addRoundKey (addRoundKey s k) k = s ∧
    subBytes (shiftRows s) = shiftRows (subBytes s) ∧
    subBytes (invShiftRows s) = invShiftRows (subBytes s) ∧
    invSubBytes (shiftRows s) = shiftRows (invSubBytes s) ∧
    invSubBytes (invShiftRows s) = invShiftRows (invSubBytes s)

/-! ### Key schedule (spec/43_key_schedule.md) -/

/-- R171, R172: KEXP. LEN != 16 raises CONFIG_ERROR, then a key out of range raises MEM_RANGE, both with
KVALID <- 0 and W kept; otherwise W is the expansion of the 16 bytes at MEM[SRC], KVALID is 1, and nothing
else changes. -/
def Obligations.KexpCommand : Prop :=
  ∀ s : State,
    (s.len ≠ 16 →
      exec .kexp s = .next { failed .configError 0x00000001 s with kvalid := false }) ∧
    (s.len = 16 → s.cfg.memBytes < s.src.toNat + 16 →
      exec .kexp s = .next { failed .memRange 0x00000001 s with kvalid := false }) ∧
    (s.len = 16 → s.src.toNat + 16 ≤ s.cfg.memBytes →
      exec .kexp s = .next { s with w := expand (s.readBytes s.src.toNat 16), kvalid := true })

/-- R170, R173(a): `Expand(K)`. The first four Words are the key bytes in order; for i = 4..43 each Word follows
from W[i-1] and W[i-4] by the recurrence. -/
def Obligations.ExpandRecurrence : Prop :=
  ∀ (k : List Byte) (hk : k.length = 16),
    (∀ i : Fin 4, (expand k)[i.val] =
      ⟨k[4 * i.val], k[4 * i.val + 1], k[4 * i.val + 2], k[4 * i.val + 3]⟩) ∧
    ∀ (i : Nat) (h : 4 ≤ i ∧ i < 44), (expand k)[i] =
      if i % 4 = 0 then
        wxor (wxor (expand k)[i - 4] (subWord (rotWord (expand k)[i - 1]))) (rcon (i / 4))
      else wxor (expand k)[i - 4] (expand k)[i - 1]

/-- R174: one step of Expand by the Word commands. From WA = W[i-1], with WB set to W[i-4] by the host, the
sequence of the rule leaves WA = W[i]. -/
def Obligations.WordCommandsStepSchedule : Prop :=
  ∀ (k : List Byte) (i : Nat) (h : 4 ≤ i ∧ i < 44) (s : State), k.length = 16 →
    s.wa = word32 (expand k)[i - 1] →
    (i % 4 = 0 → ∃ t u,
      execAll [.rotword, .subword, .rconxor (BitVec.ofNat 4 (i / 4))] s = .next t ∧
      exec .xorword { t with wb := word32 (expand k)[i - 4] } = .next u ∧
      u.wa = word32 (expand k)[i]) ∧
    (i % 4 ≠ 0 → ∃ u, exec .xorword { s with wb := word32 (expand k)[i - 4] } = .next u ∧
      u.wa = word32 (expand k)[i])

/-! ### Block cipher (spec/44_block_cipher.md) -/

/-- R182, R183: ENCBLK and DECBLK. With KVALID = 1 they replace S by Cipher(S) and InvCipher(S) under W and
change nothing else; with KVALID = 0 they raise NO_KEY. -/
def Obligations.BlockCommands : Prop :=
  ∀ s : State,
    (s.kvalid = true →
      exec .encblk s = .next { s with st := cipher s.w s.st } ∧
      exec .decblk s = .next { s with st := invCipher s.w s.st }) ∧
    (s.kvalid = false →
      exec .encblk s = .next (failed .noKey 0x00000002 s) ∧
      exec .decblk s = .next (failed .noKey 0x00000003 s))

/-- R185: ENCBLK and DECBLK are the 40-command primitive sequences of the rule, on every state with a
valid schedule: the same next state. -/
def Obligations.BlockCommandsArePrimitiveSequences : Prop :=
  ∀ s : State, s.kvalid = true →
    execAll encSequence s = exec .encblk s ∧ execAll decSequence s = exec .decblk s

/-- R184, R182, R183: under one schedule Cipher and InvCipher are inverse to each other on every block, and so DECBLK
after ENCBLK, and ENCBLK after DECBLK, restore the state. -/
def Obligations.CipherInverse : Prop :=
  (∀ (w : Vector Word 44) (b : Block),
    invCipher w (cipher w b) = b ∧ cipher w (invCipher w b) = b) ∧
  ∀ s : State, s.kvalid = true →
    execAll [.encblk, .decblk] s = .next s ∧ execAll [.decblk, .encblk] s = .next s

/-- R180, R170, source vector L2 (95_test_vectors.md): the key 000102..0f encrypts 00112233..ff to
69c4e0d8 6a7b0430 d8cdb780 70b4c55a. -/
def Obligations.SourceVectorEncrypts : Prop :=
  cipher (expand [0x00, 0x01, 0x02, 0x03, 0x04, 0x05, 0x06, 0x07, 0x08, 0x09, 0x0a, 0x0b, 0x0c, 0x0d,
      0x0e, 0x0f])
    ⟨⟨0x00, 0x11, 0x22, 0x33⟩, ⟨0x44, 0x55, 0x66, 0x77⟩, ⟨0x88, 0x99, 0xaa, 0xbb⟩,
      ⟨0xcc, 0xdd, 0xee, 0xff⟩⟩ =
    ⟨⟨0x69, 0xc4, 0xe0, 0xd8⟩, ⟨0x6a, 0x7b, 0x04, 0x30⟩, ⟨0xd8, 0xcd, 0xb7, 0x80⟩,
      ⟨0x70, 0xb4, 0xc5, 0x5a⟩⟩

/-! ### Messages (spec/45_message_ecb.md) -/

/-- R190: Pad appends n = 16 - (L mod 16) bytes of value n, 1 <= n <= 16, to a length of
16 * (L div 16 + 1), which is never L; its last byte is n. -/
def Obligations.PadShape : Prop :=
  ∀ p : List Byte, ∃ n b, 1 ≤ n ∧ n ≤ 16 ∧ n = 16 - p.length % 16 ∧ b = BitVec.ofNat 8 n ∧
    b.toNat = n ∧ pad p = p ++ List.replicate n b ∧ (pad p).getLast? = some b ∧
    (pad p).length = 16 * (p.length / 16 + 1) ∧ (pad p).length ≠ p.length

/-- R191: EncryptMessage is Pad, then Cipher on each 16-byte block on its own, concatenated in order.
Block k of the output is Cipher of block k of Pad(P), and there are no other bytes. -/
def Obligations.EncryptMessageByBlocks : Prop :=
  ∀ (w : Vector Word 44) (p : List Byte),
    (encryptMessage w p).length = 16 * (p.length / 16 + 1) ∧
    ∀ k < p.length / 16 + 1, ((encryptMessage w p).drop (16 * k)).take 16 =
      blockBytes (cipher w (blockOfBytes (((pad p).drop (16 * k)).take 16)))

/-- R198(a): DecryptMessage(EncryptMessage(P)) = P for every schedule and every P. -/
def Obligations.MessageRoundTrip : Prop :=
  ∀ (w : Vector Word 44) (p : List Byte), decryptMessage w (encryptMessage w p) = p

/-- R196: ENCMSG with a valid schedule and both ranges in MEM completes: the ciphertext stands at DST, its
length in OUTLEN, and every other byte of MEM and all else is unchanged. -/
def Obligations.EncmsgCommand : Prop :=
  ∀ s : State, s.cfg.legal = true → s.kvalid = true →
    s.src.toNat + s.len.toNat ≤ s.cfg.memBytes →
    s.dst.toNat + 16 * (s.len.toNat / 16 + 1) ≤ s.cfg.memBytes →
    ∃ (m : Memory) (n : Reg), exec .encmsg s = .next { s with mem := m, outlen := n } ∧
      n.toNat = 16 * (s.len.toNat / 16 + 1) ∧
      (∀ k < n.toNat, Memory.read m (s.dst.toNat + k) =
        (encryptMessage s.w (s.readBytes s.src.toNat s.len.toNat))[k]?) ∧
      ∀ a, a < s.dst.toNat ∨ s.dst.toNat + n.toNat ≤ a → Memory.read m a = Memory.read s.mem a

/-- R196, R226: where ENCMSG fails, and with which error, in the order of its checks; MEM and OUTLEN are
then unchanged. -/
def Obligations.EncmsgErrors : Prop :=
  ∀ s : State,
    (s.kvalid = false → exec .encmsg s = .next (failed .noKey 0x00000004 s)) ∧
    (s.kvalid = true →
      (s.cfg.memBytes < s.src.toNat + s.len.toNat ∨
        s.cfg.memBytes < s.dst.toNat + 16 * (s.len.toNat / 16 + 1)) →
      exec .encmsg s = .next (failed .memRange 0x00000004 s))

/-- R197, R193: DECMSG with a valid schedule, a length that is a positive multiple of 16, a final decrypted
byte n <= L and both ranges in MEM completes: the first L - n decrypted bytes stand at DST, L - n in OUTLEN, no
padding byte is checked, and every other byte of MEM and all else is unchanged. -/
def Obligations.DecmsgCommand : Prop :=
  ∀ (s : State) (b : Byte), s.kvalid = true → s.len.toNat % 16 = 0 →
    s.src.toNat + s.len.toNat ≤ s.cfg.memBytes →
    (decryptBlocks s.w (s.readBytes s.src.toNat s.len.toNat)).getLast? = some b →
    b.toNat ≤ s.len.toNat → s.dst.toNat + (s.len.toNat - b.toNat) ≤ s.cfg.memBytes →
    ∃ (m : Memory) (n : Reg), exec .decmsg s = .next { s with mem := m, outlen := n } ∧
      n.toNat = s.len.toNat - b.toNat ∧
      (∀ k < n.toNat, Memory.read m (s.dst.toNat + k) =
        (decryptBlocks s.w (s.readBytes s.src.toNat s.len.toNat))[k]?) ∧
      ∀ a, a < s.dst.toNat ∨ s.dst.toNat + n.toNat ≤ a → Memory.read m a = Memory.read s.mem a

/-- R197, R226: where DECMSG fails, and with which error, in the order of its checks; MEM and OUTLEN are
then unchanged. -/
def Obligations.DecmsgErrors : Prop :=
  ∀ s : State,
    (s.kvalid = false → exec .decmsg s = .next (failed .noKey 0x00000005 s)) ∧
    (s.kvalid = true → s.len.toNat % 16 ≠ 0 →
      exec .decmsg s = .next (failed .lenAlign 0x00000005 s)) ∧
    (s.kvalid = true → s.len.toNat % 16 = 0 → s.cfg.memBytes < s.src.toNat + s.len.toNat →
      exec .decmsg s = .next (failed .memRange 0x00000005 s)) ∧
    (s.kvalid = true → s.src.toNat + s.len.toNat ≤ s.cfg.memBytes → s.len = 0 →
      exec .decmsg s = .next (failed .padRange 0x00000005 s)) ∧
    (∀ b : Byte, s.kvalid = true → s.len.toNat % 16 = 0 →
      s.src.toNat + s.len.toNat ≤ s.cfg.memBytes →
      (decryptBlocks s.w (s.readBytes s.src.toNat s.len.toNat)).getLast? = some b →
      (s.len.toNat < b.toNat → exec .decmsg s = .next (failed .padRange 0x00000005 s)) ∧
      (b.toNat ≤ s.len.toNat → s.cfg.memBytes < s.dst.toNat + (s.len.toNat - b.toNat) →
        exec .decmsg s = .next (failed .memRange 0x00000005 s)))

/-- R195, R198(a), source property "decrypt_message(encrypt_message(pt, key), key) == pt", on the machine:
ENCMSG, then DECMSG of its output (SRC at its DST, LEN at its OUTLEN) to any place that fits, restores the
message byte for byte, overlapping ranges included, and its length. -/
def Obligations.EncmsgThenDecmsgRestores : Prop :=
  ∀ (s : State) (d : Reg), s.cfg.legal = true → s.kvalid = true →
    s.src.toNat + s.len.toNat ≤ s.cfg.memBytes →
    s.dst.toNat + 16 * (s.len.toNat / 16 + 1) ≤ s.cfg.memBytes →
    d.toNat + s.len.toNat ≤ s.cfg.memBytes →
    ∃ t u, exec .encmsg s = .next t ∧
      exec .decmsg { t with src := s.dst, len := t.outlen, dst := d } = .next u ∧
      u.outlen = s.len ∧
      ∀ k < s.len.toNat, Memory.read u.mem (d.toNat + k) = some (s.readByte (s.src.toNat + k))
end

