-- ==== Sys2Proof/Laws/PerInstr.lean ====
section
/-! SUPPORT. Facts about each command as syntax, one lemma per constructor. -/

namespace Sys2Proof.Laws

/-- The word of a command has RSV = 0, its opcode in OPC and its operand in IMM
(spec/30_encoding.md R90, R98). -/
def EncodeFields.Statement (i : Instr) : Prop :=
  rsvField (encode i) = 0 ∧ opcField (encode i) = opcodeOf i ∧ immField (encode i) = immOf i

/-- A word put together from an opcode and an operand has these fields. -/
theorem fields_of_parts (opc : BitVec 8) (imm : BitVec 4) :
    rsvField (opc.setWidth 32 ||| (imm.setWidth 32 <<< 8)) = 0 ∧
      opcField (opc.setWidth 32 ||| (imm.setWidth 32 <<< 8)) = opc ∧
      immField (opc.setWidth 32 ||| (imm.setWidth 32 <<< 8)) = imm := by
  refine ⟨?_, ?_, ?_⟩ <;> apply BitVec.eq_of_getLsbD_eq <;> intro i hi
  · have h1 : opc.getLsbD (12 + i) = false := BitVec.getLsbD_of_ge _ _ (by omega)
    have h2 : imm.getLsbD (12 + i - 8) = false := BitVec.getLsbD_of_ge _ _ (by omega)
    simp [rsvField, h1, h2]
  · have h : i < 32 := by omega
    simp [opcField, hi, h]
  · have h2 : 8 + i < 32 := by omega
    simp [immField, hi, h2]

theorem EncodeFields.nop : EncodeFields.Statement .nop := fields_of_parts _ _

theorem EncodeFields.kexp : EncodeFields.Statement .kexp := fields_of_parts _ _

theorem EncodeFields.encblk : EncodeFields.Statement .encblk := fields_of_parts _ _

theorem EncodeFields.decblk : EncodeFields.Statement .decblk := fields_of_parts _ _

theorem EncodeFields.encmsg : EncodeFields.Statement .encmsg := fields_of_parts _ _

theorem EncodeFields.decmsg : EncodeFields.Statement .decmsg := fields_of_parts _ _

theorem EncodeFields.ldstate : EncodeFields.Statement .ldstate := fields_of_parts _ _

theorem EncodeFields.ststate : EncodeFields.Statement .ststate := fields_of_parts _ _

theorem EncodeFields.subbytes : EncodeFields.Statement .subbytes := fields_of_parts _ _

theorem EncodeFields.invsubbytes : EncodeFields.Statement .invsubbytes := fields_of_parts _ _

theorem EncodeFields.shiftrows : EncodeFields.Statement .shiftrows := fields_of_parts _ _

theorem EncodeFields.invshiftrows : EncodeFields.Statement .invshiftrows := fields_of_parts _ _

theorem EncodeFields.mixcolumns : EncodeFields.Statement .mixcolumns := fields_of_parts _ _

theorem EncodeFields.invmixcolumns : EncodeFields.Statement .invmixcolumns := fields_of_parts _ _

theorem EncodeFields.addrk (x : BitVec 4) : EncodeFields.Statement (.addrk x) := fields_of_parts _ _

theorem EncodeFields.rotword : EncodeFields.Statement .rotword := fields_of_parts _ _

theorem EncodeFields.subword : EncodeFields.Statement .subword := fields_of_parts _ _

theorem EncodeFields.xorword : EncodeFields.Statement .xorword := fields_of_parts _ _

theorem EncodeFields.rconxor (x : BitVec 4) : EncodeFields.Statement (.rconxor x) := fields_of_parts _ _

end Sys2Proof.Laws
end

