-- ==== Sys2Proof/Laws/Decode.lean ====
section
/-! SUPPORT. The decoder and the encoder field by field: what a decoded opcode and operand say. -/

namespace Sys2Proof

/-- A command word is its three fields (spec/30_encoding.md R90). -/
theorem word_fields_ext {u v : Reg} (hr : rsvField u = rsvField v) (ho : opcField u = opcField v)
    (hm : immField u = immField v) : u = v := by
  apply BitVec.eq_of_getLsbD_eq
  intro i hi
  by_cases h8 : i < 8
  · have := congrArg (fun x => x.getLsbD i) ho
    simpa [opcField, h8] using this
  · by_cases h12 : i < 12
    · have := congrArg (fun x => x.getLsbD (i - 8)) hm
      simpa [immField, show i - 8 < 4 by omega, show 8 + (i - 8) = i by omega] using this
    · have := congrArg (fun x => x.getLsbD (i - 12)) hr
      simpa [rsvField, show i - 12 < 20 by omega, show 12 + (i - 12) = i by omega] using this

@[simp] theorem toNat_opcField (v : Reg) : (opcField v).toNat = v.toNat % 256 := by simp [opcField]

@[simp] theorem toNat_immField (v : Reg) : (immField v).toNat = v.toNat / 256 % 16 := by
  simp [immField, Nat.shiftRight_eq_div_pow]

theorem rsvField_eq_zero_iff (v : Reg) : rsvField v = 0 ↔ v.toNat / 4096 = 0 := by
  rw [← BitVec.toNat_inj]
  simp [rsvField, Nat.shiftRight_eq_div_pow]
  omega

/-- What the opcode map answers is well-formed, with the opcode and the operand it was given. -/
theorem decodeOpcode_sound {o : BitVec 8} {m : BitVec 4} {i : Instr}
    (h : decodeOpcode o.toNat m = .ok i) : i.wf = true ∧ opcodeOf i = o ∧ immOf i = m := by
  generalize ho : o.toNat = n at h
  have key : ∀ k : Nat, k < 256 → o.toNat = k → o = BitVec.ofNat 8 k := by
    intro k _ h
    subst h
    simp
  unfold decodeOpcode at h
  split at h <;> first
    | (simp only [withoutOperand] at h
       split at h
       · next hm => cases h; exact ⟨rfl, (key _ (by omega) ho).symm, hm.symm⟩
       · cases h)
    | (simp only [withRoundIndex] at h
       split at h
       · next hm => cases h; exact ⟨by simpa [Instr.wf] using hm, (key _ (by omega) ho).symm, rfl⟩
       · cases h)
    | (simp only [withConstantIndex] at h
       split at h
       · next hm => cases h; exact ⟨by simpa [Instr.wf] using hm, (key _ (by omega) ho).symm, rfl⟩
       · cases h)
    | cases h

/-- The opcode map answers every well-formed command. -/
theorem decodeOpcode_complete {i : Instr} (h : i.wf = true) :
    decodeOpcode (opcodeOf i).toNat (immOf i) = .ok i := by
  cases i with
  | addrk r =>
    have h : r.toNat ≤ 10 := by simpa [Instr.wf] using h
    exact if_pos h
  | rconxor r =>
    have h : 1 ≤ r.toNat ∧ r.toNat ≤ 10 := by simpa [Instr.wf] using h
    exact if_pos h
  | _ => rfl

end Sys2Proof
end

