-- ==== Sys2Proof/Laws/State.lean ====
section
/-! SUPPORT. One lemma per field of State per named update, so that no proof unfolds an update. -/

namespace Sys2Proof.Machine

/-! ### raiseError -/

@[simp] theorem raiseError_cfg (e : ErrCode) (v : Reg) (s : State) : (raiseError e v s).cfg = s.cfg := rfl
@[simp] theorem raiseError_src (e : ErrCode) (v : Reg) (s : State) : (raiseError e v s).src = s.src := rfl
@[simp] theorem raiseError_len (e : ErrCode) (v : Reg) (s : State) : (raiseError e v s).len = s.len := rfl
@[simp] theorem raiseError_dst (e : ErrCode) (v : Reg) (s : State) : (raiseError e v s).dst = s.dst := rfl
@[simp] theorem raiseError_outlen (e : ErrCode) (v : Reg) (s : State) : (raiseError e v s).outlen = s.outlen := rfl
@[simp] theorem raiseError_errcmd (e : ErrCode) (v : Reg) (s : State) : (raiseError e v s).errcmd = v := rfl
@[simp] theorem raiseError_wa (e : ErrCode) (v : Reg) (s : State) : (raiseError e v s).wa = s.wa := rfl
@[simp] theorem raiseError_wb (e : ErrCode) (v : Reg) (s : State) : (raiseError e v s).wb = s.wb := rfl
@[simp] theorem raiseError_st (e : ErrCode) (v : Reg) (s : State) : (raiseError e v s).st = s.st := rfl
@[simp] theorem raiseError_w (e : ErrCode) (v : Reg) (s : State) : (raiseError e v s).w = s.w := rfl
@[simp] theorem raiseError_kvalid (e : ErrCode) (v : Reg) (s : State) : (raiseError e v s).kvalid = (s.kvalid && !dropsKey e v) := rfl
@[simp] theorem raiseError_err (e : ErrCode) (v : Reg) (s : State) : (raiseError e v s).err = e := rfl
@[simp] theorem raiseError_pend (e : ErrCode) (v : Reg) (s : State) : (raiseError e v s).pend = none := rfl
@[simp] theorem raiseError_window (e : ErrCode) (v : Reg) (s : State) : (raiseError e v s).window = s.window := rfl
@[simp] theorem raiseError_mem (e : ErrCode) (v : Reg) (s : State) : (raiseError e v s).mem = s.mem := rfl
@[simp] theorem raiseError_hostProg (e : ErrCode) (v : Reg) (s : State) : (raiseError e v s).hostProg = s.hostProg := rfl
@[simp] theorem raiseError_hostPc (e : ErrCode) (v : Reg) (s : State) : (raiseError e v s).hostPc = s.hostPc := rfl
@[simp] theorem raiseError_hostLast (e : ErrCode) (v : Reg) (s : State) : (raiseError e v s).hostLast = s.hostLast := rfl
@[simp] theorem raiseError_responses (e : ErrCode) (v : Reg) (s : State) : (raiseError e v s).responses = s.responses := rfl
@[simp] theorem raiseError_busyLeft (e : ErrCode) (v : Reg) (s : State) : (raiseError e v s).busyLeft = s.busyLeft := rfl
@[simp] theorem raiseError_ticks (e : ErrCode) (v : Reg) (s : State) : (raiseError e v s).ticks = s.ticks := rfl

/-! ### clearError -/

@[simp] theorem clearError_cfg (s : State) : (clearError s).cfg = s.cfg := rfl
@[simp] theorem clearError_src (s : State) : (clearError s).src = s.src := rfl
@[simp] theorem clearError_len (s : State) : (clearError s).len = s.len := rfl
@[simp] theorem clearError_dst (s : State) : (clearError s).dst = s.dst := rfl
@[simp] theorem clearError_outlen (s : State) : (clearError s).outlen = s.outlen := rfl
@[simp] theorem clearError_errcmd (s : State) : (clearError s).errcmd = s.errcmd := rfl
@[simp] theorem clearError_wa (s : State) : (clearError s).wa = s.wa := rfl
@[simp] theorem clearError_wb (s : State) : (clearError s).wb = s.wb := rfl
@[simp] theorem clearError_st (s : State) : (clearError s).st = s.st := rfl
@[simp] theorem clearError_w (s : State) : (clearError s).w = s.w := rfl
@[simp] theorem clearError_kvalid (s : State) : (clearError s).kvalid = s.kvalid := rfl
@[simp] theorem clearError_err (s : State) : (clearError s).err = .noError := rfl
@[simp] theorem clearError_pend (s : State) : (clearError s).pend = s.pend := rfl
@[simp] theorem clearError_window (s : State) : (clearError s).window = s.window := rfl
@[simp] theorem clearError_mem (s : State) : (clearError s).mem = s.mem := rfl
@[simp] theorem clearError_hostProg (s : State) : (clearError s).hostProg = s.hostProg := rfl
@[simp] theorem clearError_hostPc (s : State) : (clearError s).hostPc = s.hostPc := rfl
@[simp] theorem clearError_hostLast (s : State) : (clearError s).hostLast = s.hostLast := rfl
@[simp] theorem clearError_responses (s : State) : (clearError s).responses = s.responses := rfl
@[simp] theorem clearError_busyLeft (s : State) : (clearError s).busyLeft = s.busyLeft := rfl
@[simp] theorem clearError_ticks (s : State) : (clearError s).ticks = s.ticks := rfl

/-! ### acceptCommand -/

@[simp] theorem acceptCommand_cfg (v : Reg) (n : Nat) (s : State) : (acceptCommand v n s).cfg = s.cfg := rfl
@[simp] theorem acceptCommand_src (v : Reg) (n : Nat) (s : State) : (acceptCommand v n s).src = s.src := rfl
@[simp] theorem acceptCommand_len (v : Reg) (n : Nat) (s : State) : (acceptCommand v n s).len = s.len := rfl
@[simp] theorem acceptCommand_dst (v : Reg) (n : Nat) (s : State) : (acceptCommand v n s).dst = s.dst := rfl
@[simp] theorem acceptCommand_outlen (v : Reg) (n : Nat) (s : State) : (acceptCommand v n s).outlen = s.outlen := rfl
@[simp] theorem acceptCommand_errcmd (v : Reg) (n : Nat) (s : State) : (acceptCommand v n s).errcmd = s.errcmd := rfl
@[simp] theorem acceptCommand_wa (v : Reg) (n : Nat) (s : State) : (acceptCommand v n s).wa = s.wa := rfl
@[simp] theorem acceptCommand_wb (v : Reg) (n : Nat) (s : State) : (acceptCommand v n s).wb = s.wb := rfl
@[simp] theorem acceptCommand_st (v : Reg) (n : Nat) (s : State) : (acceptCommand v n s).st = s.st := rfl
@[simp] theorem acceptCommand_w (v : Reg) (n : Nat) (s : State) : (acceptCommand v n s).w = s.w := rfl
@[simp] theorem acceptCommand_kvalid (v : Reg) (n : Nat) (s : State) : (acceptCommand v n s).kvalid = s.kvalid := rfl
@[simp] theorem acceptCommand_err (v : Reg) (n : Nat) (s : State) : (acceptCommand v n s).err = s.err := rfl
@[simp] theorem acceptCommand_pend (v : Reg) (n : Nat) (s : State) : (acceptCommand v n s).pend = some v := rfl
@[simp] theorem acceptCommand_window (v : Reg) (n : Nat) (s : State) : (acceptCommand v n s).window = true := rfl
@[simp] theorem acceptCommand_mem (v : Reg) (n : Nat) (s : State) : (acceptCommand v n s).mem = s.mem := rfl
@[simp] theorem acceptCommand_hostProg (v : Reg) (n : Nat) (s : State) : (acceptCommand v n s).hostProg = s.hostProg := rfl
@[simp] theorem acceptCommand_hostPc (v : Reg) (n : Nat) (s : State) : (acceptCommand v n s).hostPc = s.hostPc := rfl
@[simp] theorem acceptCommand_hostLast (v : Reg) (n : Nat) (s : State) : (acceptCommand v n s).hostLast = s.hostLast := rfl
@[simp] theorem acceptCommand_responses (v : Reg) (n : Nat) (s : State) : (acceptCommand v n s).responses = s.responses := rfl
@[simp] theorem acceptCommand_busyLeft (v : Reg) (n : Nat) (s : State) : (acceptCommand v n s).busyLeft = n := rfl
@[simp] theorem acceptCommand_ticks (v : Reg) (n : Nat) (s : State) : (acceptCommand v n s).ticks = s.ticks := rfl

/-! ### finishCommand -/

@[simp] theorem finishCommand_cfg (s : State) : (finishCommand s).cfg = s.cfg := rfl
@[simp] theorem finishCommand_src (s : State) : (finishCommand s).src = s.src := rfl
@[simp] theorem finishCommand_len (s : State) : (finishCommand s).len = s.len := rfl
@[simp] theorem finishCommand_dst (s : State) : (finishCommand s).dst = s.dst := rfl
@[simp] theorem finishCommand_outlen (s : State) : (finishCommand s).outlen = s.outlen := rfl
@[simp] theorem finishCommand_errcmd (s : State) : (finishCommand s).errcmd = s.errcmd := rfl
@[simp] theorem finishCommand_wa (s : State) : (finishCommand s).wa = s.wa := rfl
@[simp] theorem finishCommand_wb (s : State) : (finishCommand s).wb = s.wb := rfl
@[simp] theorem finishCommand_st (s : State) : (finishCommand s).st = s.st := rfl
@[simp] theorem finishCommand_w (s : State) : (finishCommand s).w = s.w := rfl
@[simp] theorem finishCommand_kvalid (s : State) : (finishCommand s).kvalid = s.kvalid := rfl
@[simp] theorem finishCommand_err (s : State) : (finishCommand s).err = s.err := rfl
@[simp] theorem finishCommand_pend (s : State) : (finishCommand s).pend = none := rfl
@[simp] theorem finishCommand_window (s : State) : (finishCommand s).window = s.window := rfl
@[simp] theorem finishCommand_mem (s : State) : (finishCommand s).mem = s.mem := rfl
@[simp] theorem finishCommand_hostProg (s : State) : (finishCommand s).hostProg = s.hostProg := rfl
@[simp] theorem finishCommand_hostPc (s : State) : (finishCommand s).hostPc = s.hostPc := rfl
@[simp] theorem finishCommand_hostLast (s : State) : (finishCommand s).hostLast = s.hostLast := rfl
@[simp] theorem finishCommand_responses (s : State) : (finishCommand s).responses = s.responses := rfl
@[simp] theorem finishCommand_busyLeft (s : State) : (finishCommand s).busyLeft = s.busyLeft := rfl
@[simp] theorem finishCommand_ticks (s : State) : (finishCommand s).ticks = s.ticks + 1 := rfl

/-! ### applyToBlock -/

@[simp] theorem applyToBlock_cfg (f : Block → Block) (s : State) : (applyToBlock f s).cfg = s.cfg := rfl
@[simp] theorem applyToBlock_src (f : Block → Block) (s : State) : (applyToBlock f s).src = s.src := rfl
@[simp] theorem applyToBlock_len (f : Block → Block) (s : State) : (applyToBlock f s).len = s.len := rfl
@[simp] theorem applyToBlock_dst (f : Block → Block) (s : State) : (applyToBlock f s).dst = s.dst := rfl
@[simp] theorem applyToBlock_outlen (f : Block → Block) (s : State) : (applyToBlock f s).outlen = s.outlen := rfl
@[simp] theorem applyToBlock_errcmd (f : Block → Block) (s : State) : (applyToBlock f s).errcmd = s.errcmd := rfl
@[simp] theorem applyToBlock_wa (f : Block → Block) (s : State) : (applyToBlock f s).wa = s.wa := rfl
@[simp] theorem applyToBlock_wb (f : Block → Block) (s : State) : (applyToBlock f s).wb = s.wb := rfl
@[simp] theorem applyToBlock_st (f : Block → Block) (s : State) : (applyToBlock f s).st = f s.st := rfl
@[simp] theorem applyToBlock_w (f : Block → Block) (s : State) : (applyToBlock f s).w = s.w := rfl
@[simp] theorem applyToBlock_kvalid (f : Block → Block) (s : State) : (applyToBlock f s).kvalid = s.kvalid := rfl
@[simp] theorem applyToBlock_err (f : Block → Block) (s : State) : (applyToBlock f s).err = s.err := rfl
@[simp] theorem applyToBlock_pend (f : Block → Block) (s : State) : (applyToBlock f s).pend = s.pend := rfl
@[simp] theorem applyToBlock_window (f : Block → Block) (s : State) : (applyToBlock f s).window = s.window := rfl
@[simp] theorem applyToBlock_mem (f : Block → Block) (s : State) : (applyToBlock f s).mem = s.mem := rfl
@[simp] theorem applyToBlock_hostProg (f : Block → Block) (s : State) : (applyToBlock f s).hostProg = s.hostProg := rfl
@[simp] theorem applyToBlock_hostPc (f : Block → Block) (s : State) : (applyToBlock f s).hostPc = s.hostPc := rfl
@[simp] theorem applyToBlock_hostLast (f : Block → Block) (s : State) : (applyToBlock f s).hostLast = s.hostLast := rfl
@[simp] theorem applyToBlock_responses (f : Block → Block) (s : State) : (applyToBlock f s).responses = s.responses := rfl
@[simp] theorem applyToBlock_busyLeft (f : Block → Block) (s : State) : (applyToBlock f s).busyLeft = s.busyLeft := rfl
@[simp] theorem applyToBlock_ticks (f : Block → Block) (s : State) : (applyToBlock f s).ticks = s.ticks := rfl

/-! ### writeBytes -/

@[simp] theorem writeBytes_cfg (s : State) (a : Nat) (bs : List Byte) : (s.writeBytes a bs).cfg = s.cfg := rfl
@[simp] theorem writeBytes_src (s : State) (a : Nat) (bs : List Byte) : (s.writeBytes a bs).src = s.src := rfl
@[simp] theorem writeBytes_len (s : State) (a : Nat) (bs : List Byte) : (s.writeBytes a bs).len = s.len := rfl
@[simp] theorem writeBytes_dst (s : State) (a : Nat) (bs : List Byte) : (s.writeBytes a bs).dst = s.dst := rfl
@[simp] theorem writeBytes_outlen (s : State) (a : Nat) (bs : List Byte) : (s.writeBytes a bs).outlen = s.outlen := rfl
@[simp] theorem writeBytes_errcmd (s : State) (a : Nat) (bs : List Byte) : (s.writeBytes a bs).errcmd = s.errcmd := rfl
@[simp] theorem writeBytes_wa (s : State) (a : Nat) (bs : List Byte) : (s.writeBytes a bs).wa = s.wa := rfl
@[simp] theorem writeBytes_wb (s : State) (a : Nat) (bs : List Byte) : (s.writeBytes a bs).wb = s.wb := rfl
@[simp] theorem writeBytes_st (s : State) (a : Nat) (bs : List Byte) : (s.writeBytes a bs).st = s.st := rfl
@[simp] theorem writeBytes_w (s : State) (a : Nat) (bs : List Byte) : (s.writeBytes a bs).w = s.w := rfl
@[simp] theorem writeBytes_kvalid (s : State) (a : Nat) (bs : List Byte) : (s.writeBytes a bs).kvalid = s.kvalid := rfl
@[simp] theorem writeBytes_err (s : State) (a : Nat) (bs : List Byte) : (s.writeBytes a bs).err = s.err := rfl
@[simp] theorem writeBytes_pend (s : State) (a : Nat) (bs : List Byte) : (s.writeBytes a bs).pend = s.pend := rfl
@[simp] theorem writeBytes_window (s : State) (a : Nat) (bs : List Byte) : (s.writeBytes a bs).window = s.window := rfl
@[simp] theorem writeBytes_mem (s : State) (a : Nat) (bs : List Byte) : (s.writeBytes a bs).mem = Memory.writeBytes s.mem a bs := rfl
@[simp] theorem writeBytes_hostProg (s : State) (a : Nat) (bs : List Byte) : (s.writeBytes a bs).hostProg = s.hostProg := rfl
@[simp] theorem writeBytes_hostPc (s : State) (a : Nat) (bs : List Byte) : (s.writeBytes a bs).hostPc = s.hostPc := rfl
@[simp] theorem writeBytes_hostLast (s : State) (a : Nat) (bs : List Byte) : (s.writeBytes a bs).hostLast = s.hostLast := rfl
@[simp] theorem writeBytes_responses (s : State) (a : Nat) (bs : List Byte) : (s.writeBytes a bs).responses = s.responses := rfl
@[simp] theorem writeBytes_busyLeft (s : State) (a : Nat) (bs : List Byte) : (s.writeBytes a bs).busyLeft = s.busyLeft := rfl
@[simp] theorem writeBytes_ticks (s : State) (a : Nat) (bs : List Byte) : (s.writeBytes a bs).ticks = s.ticks := rfl

/-! ### writeOutput -/

@[simp] theorem writeOutput_cfg (bs : List Byte) (s : State) : (writeOutput bs s).cfg = s.cfg := rfl
@[simp] theorem writeOutput_src (bs : List Byte) (s : State) : (writeOutput bs s).src = s.src := rfl
@[simp] theorem writeOutput_len (bs : List Byte) (s : State) : (writeOutput bs s).len = s.len := rfl
@[simp] theorem writeOutput_dst (bs : List Byte) (s : State) : (writeOutput bs s).dst = s.dst := rfl
@[simp] theorem writeOutput_outlen (bs : List Byte) (s : State) : (writeOutput bs s).outlen = BitVec.ofNat 32 bs.length := rfl
@[simp] theorem writeOutput_errcmd (bs : List Byte) (s : State) : (writeOutput bs s).errcmd = s.errcmd := rfl
@[simp] theorem writeOutput_wa (bs : List Byte) (s : State) : (writeOutput bs s).wa = s.wa := rfl
@[simp] theorem writeOutput_wb (bs : List Byte) (s : State) : (writeOutput bs s).wb = s.wb := rfl
@[simp] theorem writeOutput_st (bs : List Byte) (s : State) : (writeOutput bs s).st = s.st := rfl
@[simp] theorem writeOutput_w (bs : List Byte) (s : State) : (writeOutput bs s).w = s.w := rfl
@[simp] theorem writeOutput_kvalid (bs : List Byte) (s : State) : (writeOutput bs s).kvalid = s.kvalid := rfl
@[simp] theorem writeOutput_err (bs : List Byte) (s : State) : (writeOutput bs s).err = s.err := rfl
@[simp] theorem writeOutput_pend (bs : List Byte) (s : State) : (writeOutput bs s).pend = s.pend := rfl
@[simp] theorem writeOutput_window (bs : List Byte) (s : State) : (writeOutput bs s).window = s.window := rfl
@[simp] theorem writeOutput_mem (bs : List Byte) (s : State) : (writeOutput bs s).mem = Memory.writeBytes s.mem s.dst.toNat bs := rfl
@[simp] theorem writeOutput_hostProg (bs : List Byte) (s : State) : (writeOutput bs s).hostProg = s.hostProg := rfl
@[simp] theorem writeOutput_hostPc (bs : List Byte) (s : State) : (writeOutput bs s).hostPc = s.hostPc := rfl
@[simp] theorem writeOutput_hostLast (bs : List Byte) (s : State) : (writeOutput bs s).hostLast = s.hostLast := rfl
@[simp] theorem writeOutput_responses (bs : List Byte) (s : State) : (writeOutput bs s).responses = s.responses := rfl
@[simp] theorem writeOutput_busyLeft (bs : List Byte) (s : State) : (writeOutput bs s).busyLeft = s.busyLeft := rfl
@[simp] theorem writeOutput_ticks (bs : List Byte) (s : State) : (writeOutput bs s).ticks = s.ticks := rfl

/-! ### respond -/

@[simp] theorem respond_cfg (r : Response) (s : State) : (respond r s).cfg = s.cfg := rfl
@[simp] theorem respond_src (r : Response) (s : State) : (respond r s).src = s.src := rfl
@[simp] theorem respond_len (r : Response) (s : State) : (respond r s).len = s.len := rfl
@[simp] theorem respond_dst (r : Response) (s : State) : (respond r s).dst = s.dst := rfl
@[simp] theorem respond_outlen (r : Response) (s : State) : (respond r s).outlen = s.outlen := rfl
@[simp] theorem respond_errcmd (r : Response) (s : State) : (respond r s).errcmd = s.errcmd := rfl
@[simp] theorem respond_wa (r : Response) (s : State) : (respond r s).wa = s.wa := rfl
@[simp] theorem respond_wb (r : Response) (s : State) : (respond r s).wb = s.wb := rfl
@[simp] theorem respond_st (r : Response) (s : State) : (respond r s).st = s.st := rfl
@[simp] theorem respond_w (r : Response) (s : State) : (respond r s).w = s.w := rfl
@[simp] theorem respond_kvalid (r : Response) (s : State) : (respond r s).kvalid = s.kvalid := rfl
@[simp] theorem respond_err (r : Response) (s : State) : (respond r s).err = s.err := rfl
@[simp] theorem respond_pend (r : Response) (s : State) : (respond r s).pend = s.pend := rfl
@[simp] theorem respond_window (r : Response) (s : State) : (respond r s).window = s.window := rfl
@[simp] theorem respond_mem (r : Response) (s : State) : (respond r s).mem = s.mem := rfl
@[simp] theorem respond_hostProg (r : Response) (s : State) : (respond r s).hostProg = s.hostProg := rfl
@[simp] theorem respond_hostPc (r : Response) (s : State) : (respond r s).hostPc = s.hostPc := rfl
@[simp] theorem respond_hostLast (r : Response) (s : State) : (respond r s).hostLast = s.hostLast := rfl
@[simp] theorem respond_responses (r : Response) (s : State) : (respond r s).responses = r :: s.responses := rfl
@[simp] theorem respond_busyLeft (r : Response) (s : State) : (respond r s).busyLeft = s.busyLeft := rfl
@[simp] theorem respond_ticks (r : Response) (s : State) : (respond r s).ticks = s.ticks := rfl

/-! ### receive -/

@[simp] theorem receive_cfg (r : Response) (v : Reg) (s : State) : (receive r v s).cfg = s.cfg := rfl
@[simp] theorem receive_src (r : Response) (v : Reg) (s : State) : (receive r v s).src = s.src := rfl
@[simp] theorem receive_len (r : Response) (v : Reg) (s : State) : (receive r v s).len = s.len := rfl
@[simp] theorem receive_dst (r : Response) (v : Reg) (s : State) : (receive r v s).dst = s.dst := rfl
@[simp] theorem receive_outlen (r : Response) (v : Reg) (s : State) : (receive r v s).outlen = s.outlen := rfl
@[simp] theorem receive_errcmd (r : Response) (v : Reg) (s : State) : (receive r v s).errcmd = s.errcmd := rfl
@[simp] theorem receive_wa (r : Response) (v : Reg) (s : State) : (receive r v s).wa = s.wa := rfl
@[simp] theorem receive_wb (r : Response) (v : Reg) (s : State) : (receive r v s).wb = s.wb := rfl
@[simp] theorem receive_st (r : Response) (v : Reg) (s : State) : (receive r v s).st = s.st := rfl
@[simp] theorem receive_w (r : Response) (v : Reg) (s : State) : (receive r v s).w = s.w := rfl
@[simp] theorem receive_kvalid (r : Response) (v : Reg) (s : State) : (receive r v s).kvalid = s.kvalid := rfl
@[simp] theorem receive_err (r : Response) (v : Reg) (s : State) : (receive r v s).err = s.err := rfl
@[simp] theorem receive_pend (r : Response) (v : Reg) (s : State) : (receive r v s).pend = s.pend := rfl
@[simp] theorem receive_window (r : Response) (v : Reg) (s : State) : (receive r v s).window = s.window := rfl
@[simp] theorem receive_mem (r : Response) (v : Reg) (s : State) : (receive r v s).mem = s.mem := rfl
@[simp] theorem receive_hostProg (r : Response) (v : Reg) (s : State) : (receive r v s).hostProg = s.hostProg := rfl
@[simp] theorem receive_hostPc (r : Response) (v : Reg) (s : State) : (receive r v s).hostPc = s.hostPc := rfl
@[simp] theorem receive_hostLast (r : Response) (v : Reg) (s : State) : (receive r v s).hostLast = v := rfl
@[simp] theorem receive_responses (r : Response) (v : Reg) (s : State) : (receive r v s).responses = r :: s.responses := rfl
@[simp] theorem receive_busyLeft (r : Response) (v : Reg) (s : State) : (receive r v s).busyLeft = s.busyLeft := rfl
@[simp] theorem receive_ticks (r : Response) (v : Reg) (s : State) : (receive r v s).ticks = s.ticks := rfl

/-! ### tick -/

@[simp] theorem tick_cfg (s : State) : (tick s).cfg = s.cfg := rfl
@[simp] theorem tick_src (s : State) : (tick s).src = s.src := rfl
@[simp] theorem tick_len (s : State) : (tick s).len = s.len := rfl
@[simp] theorem tick_dst (s : State) : (tick s).dst = s.dst := rfl
@[simp] theorem tick_outlen (s : State) : (tick s).outlen = s.outlen := rfl
@[simp] theorem tick_errcmd (s : State) : (tick s).errcmd = s.errcmd := rfl
@[simp] theorem tick_wa (s : State) : (tick s).wa = s.wa := rfl
@[simp] theorem tick_wb (s : State) : (tick s).wb = s.wb := rfl
@[simp] theorem tick_st (s : State) : (tick s).st = s.st := rfl
@[simp] theorem tick_w (s : State) : (tick s).w = s.w := rfl
@[simp] theorem tick_kvalid (s : State) : (tick s).kvalid = s.kvalid := rfl
@[simp] theorem tick_err (s : State) : (tick s).err = s.err := rfl
@[simp] theorem tick_pend (s : State) : (tick s).pend = s.pend := rfl
@[simp] theorem tick_window (s : State) : (tick s).window = s.window := rfl
@[simp] theorem tick_mem (s : State) : (tick s).mem = s.mem := rfl
@[simp] theorem tick_hostProg (s : State) : (tick s).hostProg = s.hostProg := rfl
@[simp] theorem tick_hostPc (s : State) : (tick s).hostPc = s.hostPc := rfl
@[simp] theorem tick_hostLast (s : State) : (tick s).hostLast = s.hostLast := rfl
@[simp] theorem tick_responses (s : State) : (tick s).responses = s.responses := rfl
@[simp] theorem tick_busyLeft (s : State) : (tick s).busyLeft = s.busyLeft := rfl
@[simp] theorem tick_ticks (s : State) : (tick s).ticks = s.ticks + 1 := rfl

/-! ### hostMove -/

@[simp] theorem hostMove_cfg (s : State) : (hostMove s).cfg = s.cfg := rfl
@[simp] theorem hostMove_src (s : State) : (hostMove s).src = s.src := rfl
@[simp] theorem hostMove_len (s : State) : (hostMove s).len = s.len := rfl
@[simp] theorem hostMove_dst (s : State) : (hostMove s).dst = s.dst := rfl
@[simp] theorem hostMove_outlen (s : State) : (hostMove s).outlen = s.outlen := rfl
@[simp] theorem hostMove_errcmd (s : State) : (hostMove s).errcmd = s.errcmd := rfl
@[simp] theorem hostMove_wa (s : State) : (hostMove s).wa = s.wa := rfl
@[simp] theorem hostMove_wb (s : State) : (hostMove s).wb = s.wb := rfl
@[simp] theorem hostMove_st (s : State) : (hostMove s).st = s.st := rfl
@[simp] theorem hostMove_w (s : State) : (hostMove s).w = s.w := rfl
@[simp] theorem hostMove_kvalid (s : State) : (hostMove s).kvalid = s.kvalid := rfl
@[simp] theorem hostMove_err (s : State) : (hostMove s).err = s.err := rfl
@[simp] theorem hostMove_pend (s : State) : (hostMove s).pend = s.pend := rfl
@[simp] theorem hostMove_window (s : State) : (hostMove s).window = s.window := rfl
@[simp] theorem hostMove_mem (s : State) : (hostMove s).mem = s.mem := rfl
@[simp] theorem hostMove_hostProg (s : State) : (hostMove s).hostProg = s.hostProg := rfl
@[simp] theorem hostMove_hostPc (s : State) : (hostMove s).hostPc = s.hostPc + 1 := rfl
@[simp] theorem hostMove_hostLast (s : State) : (hostMove s).hostLast = s.hostLast := rfl
@[simp] theorem hostMove_responses (s : State) : (hostMove s).responses = s.responses := rfl
@[simp] theorem hostMove_busyLeft (s : State) : (hostMove s).busyLeft = s.busyLeft - 1 := rfl
@[simp] theorem hostMove_ticks (s : State) : (hostMove s).ticks = s.ticks := rfl

/-! ### afterHost -/

@[simp] theorem afterHost_cfg (r : Response) (s : State) : (afterHost r s).cfg = s.cfg := rfl
@[simp] theorem afterHost_src (r : Response) (s : State) : (afterHost r s).src = s.src := rfl
@[simp] theorem afterHost_len (r : Response) (s : State) : (afterHost r s).len = s.len := rfl
@[simp] theorem afterHost_dst (r : Response) (s : State) : (afterHost r s).dst = s.dst := rfl
@[simp] theorem afterHost_outlen (r : Response) (s : State) : (afterHost r s).outlen = s.outlen := rfl
@[simp] theorem afterHost_errcmd (r : Response) (s : State) : (afterHost r s).errcmd = s.errcmd := rfl
@[simp] theorem afterHost_wa (r : Response) (s : State) : (afterHost r s).wa = s.wa := rfl
@[simp] theorem afterHost_wb (r : Response) (s : State) : (afterHost r s).wb = s.wb := rfl
@[simp] theorem afterHost_st (r : Response) (s : State) : (afterHost r s).st = s.st := rfl
@[simp] theorem afterHost_w (r : Response) (s : State) : (afterHost r s).w = s.w := rfl
@[simp] theorem afterHost_kvalid (r : Response) (s : State) : (afterHost r s).kvalid = s.kvalid := rfl
@[simp] theorem afterHost_err (r : Response) (s : State) : (afterHost r s).err = s.err := rfl
@[simp] theorem afterHost_pend (r : Response) (s : State) : (afterHost r s).pend = s.pend := rfl
@[simp] theorem afterHost_window (r : Response) (s : State) : (afterHost r s).window = s.window := rfl
@[simp] theorem afterHost_mem (r : Response) (s : State) : (afterHost r s).mem = s.mem := rfl
@[simp] theorem afterHost_hostProg (r : Response) (s : State) : (afterHost r s).hostProg = s.hostProg := rfl
@[simp] theorem afterHost_hostPc (r : Response) (s : State) : (afterHost r s).hostPc = s.hostPc + 1 := rfl
@[simp] theorem afterHost_hostLast (r : Response) (s : State) : (afterHost r s).hostLast = s.hostLast := rfl
@[simp] theorem afterHost_responses (r : Response) (s : State) : (afterHost r s).responses = r :: s.responses := rfl
@[simp] theorem afterHost_busyLeft (r : Response) (s : State) : (afterHost r s).busyLeft = s.busyLeft - 1 := rfl
@[simp] theorem afterHost_ticks (r : Response) (s : State) : (afterHost r s).ticks = s.ticks + 1 := rfl

/-! ### resetEngine -/

@[simp] theorem resetEngine_cfg (s : State) : (resetEngine s).cfg = s.cfg := rfl
@[simp] theorem resetEngine_src (s : State) : (resetEngine s).src = 0 := rfl
@[simp] theorem resetEngine_len (s : State) : (resetEngine s).len = 0 := rfl
@[simp] theorem resetEngine_dst (s : State) : (resetEngine s).dst = 0 := rfl
@[simp] theorem resetEngine_outlen (s : State) : (resetEngine s).outlen = 0 := rfl
@[simp] theorem resetEngine_errcmd (s : State) : (resetEngine s).errcmd = 0 := rfl
@[simp] theorem resetEngine_wa (s : State) : (resetEngine s).wa = 0 := rfl
@[simp] theorem resetEngine_wb (s : State) : (resetEngine s).wb = 0 := rfl
@[simp] theorem resetEngine_st (s : State) : (resetEngine s).st = Block.zero := rfl
@[simp] theorem resetEngine_w (s : State) : (resetEngine s).w = Vector.replicate 44 Word.zero := rfl
@[simp] theorem resetEngine_kvalid (s : State) : (resetEngine s).kvalid = false := rfl
@[simp] theorem resetEngine_err (s : State) : (resetEngine s).err = .noError := rfl
@[simp] theorem resetEngine_pend (s : State) : (resetEngine s).pend = none := rfl
@[simp] theorem resetEngine_window (s : State) : (resetEngine s).window = false := rfl
@[simp] theorem resetEngine_mem (s : State) : (resetEngine s).mem = [] := rfl
@[simp] theorem resetEngine_hostProg (s : State) : (resetEngine s).hostProg = s.hostProg := rfl
@[simp] theorem resetEngine_hostPc (s : State) : (resetEngine s).hostPc = s.hostPc := rfl
@[simp] theorem resetEngine_hostLast (s : State) : (resetEngine s).hostLast = s.hostLast := rfl
@[simp] theorem resetEngine_responses (s : State) : (resetEngine s).responses = s.responses := rfl
@[simp] theorem resetEngine_busyLeft (s : State) : (resetEngine s).busyLeft = 0 := rfl
@[simp] theorem resetEngine_ticks (s : State) : (resetEngine s).ticks = s.ticks := rfl

end Sys2Proof.Machine
end

