-- ==== Sys2Proof/Laws/Words.lean ====
section
/-! SUPPORT. Words, blocks and their 32-bit and byte forms. -/

namespace Sys2Proof.Machine

theorem word_ext {u w : Word} (h0 : u.b0 = w.b0) (h1 : u.b1 = w.b1) (h2 : u.b2 = w.b2)
    (h3 : u.b3 = w.b3) : u = w := by
  cases u; cases w; simp_all

theorem block_ext {s t : Block} (h0 : s.c0 = t.c0) (h1 : s.c1 = t.c1) (h2 : s.c2 = t.c2)
    (h3 : s.c3 = t.c3) : s = t := by
  cases s; cases t; simp_all

/-- Bit `i` of a Word's 32-bit form (spec/00_scope.md R10). -/
theorem getLsbD_word32 (w : Word) (i : Nat) :
    (word32 w).getLsbD i =
      if i < 8 then w.b3.getLsbD i else if i < 16 then w.b2.getLsbD (i - 8)
      else if i < 24 then w.b1.getLsbD (i - 16) else w.b0.getLsbD (i - 24) := by
  by_cases h0 : i < 8
  · have h1 : i < 16 := by omega
    have h2 : i < 24 := by omega
    have h3 : i < 32 := by omega
    simp [word32, h0, h1, h2, h3]
  · by_cases h1 : i < 16
    · have h2 : i < 24 := by omega
      have h3 : i < 32 := by omega
      have h4 : w.b3.getLsbD i = false := BitVec.getLsbD_of_ge _ _ (by omega)
      simp [word32, h0, h1, h2, h3, h4]
    · by_cases h2 : i < 24
      · have h3 : i < 32 := by omega
        have h4 : w.b3.getLsbD i = false := BitVec.getLsbD_of_ge _ _ (by omega)
        have h5 : w.b2.getLsbD (i - 8) = false := BitVec.getLsbD_of_ge _ _ (by omega)
        simp [word32, h0, h1, h2, h3, h4, h5]
      · have h4 : w.b3.getLsbD i = false := BitVec.getLsbD_of_ge _ _ (by omega)
        have h5 : w.b2.getLsbD (i - 8) = false := BitVec.getLsbD_of_ge _ _ (by omega)
        have h6 : w.b1.getLsbD (i - 16) = false := BitVec.getLsbD_of_ge _ _ (by omega)
        by_cases h3 : i < 32
        · simp [word32, h0, h1, h2, h3, h4, h5, h6]
        · have h7 : w.b0.getLsbD (i - 24) = false := BitVec.getLsbD_of_ge _ _ (by omega)
          simp [word32, h0, h1, h2, h3, h7]

@[simp] theorem toWord_word32 (w : Word) : toWord (word32 w) = w := by
  refine word_ext ?_ ?_ ?_ ?_ <;>
  · apply BitVec.eq_of_getLsbD_eq
    intro i hi
    simp only [toWord, BitVec.getLsbD_extractLsb', getLsbD_word32, hi, decide_true, Bool.true_and]
    repeat' split
    all_goals first | omega | (congr 1; omega)

@[simp] theorem word32_toWord (v : Reg) : word32 (toWord v) = v := by
  apply BitVec.eq_of_getLsbD_eq
  intro i hi
  rw [getLsbD_word32]
  simp only [toWord, BitVec.getLsbD_extractLsb']
  split
  · next h => simp [h]
  · split
    · next h0 h => simp [show i - 8 < 8 by omega, show 8 + (i - 8) = i by omega]
    · split
      · next h1 h => simp [show i - 16 < 8 by omega, show 16 + (i - 16) = i by omega]
      · next h2 => simp [show i - 24 < 8 by omega, show 24 + (i - 24) = i by omega]

@[simp] theorem length_wordBytes (w : Word) : (wordBytes w).length = 4 := rfl

@[simp] theorem length_blockBytes (s : Block) : (blockBytes s).length = 16 := rfl

@[simp] theorem blockOfBytes_blockBytes (s : Block) : blockOfBytes (blockBytes s) = s := rfl

/-- Sixteen bytes are the bytes of the block they load (spec/10_state.md R26: "convertible losslessly"). -/
theorem blockBytes_blockOfBytes {l : List Byte} (h : l.length = 16) :
    blockBytes (blockOfBytes l) = l := by
  match l, h with
  | [_, _, _, _, _, _, _, _, _, _, _, _, _, _, _, _], _ => rfl

/-- `blockOfBytes` reads only the first 16 bytes. -/
theorem blockOfBytes_blockBytes_append (s : Block) (l : List Byte) :
    blockOfBytes (blockBytes s ++ l) = s := rfl

/-- The 32-bit form of a Word as a number: `b0` weighs most (spec/20_memory.md R62). -/
theorem toNat_word32 (w : Word) : (word32 w).toNat =
    w.b0.toNat * 2 ^ 24 + w.b1.toNat * 2 ^ 16 + w.b2.toNat * 2 ^ 8 + w.b3.toNat := by
  have hw : word32 w = (w.b0 ++ w.b1 ++ w.b2 ++ w.b3 : BitVec 32) := by
    apply BitVec.eq_of_getLsbD_eq
    intro i hi
    rw [getLsbD_word32]
    simp only [BitVec.getLsbD_append]
    repeat' split
    all_goals first | omega | rfl
  have join : ∀ x y : Nat, y < 2 ^ 8 → x * 2 ^ 8 ||| y = x * 2 ^ 8 + y := by
    intro x y hy
    rw [← Nat.shiftLeft_eq, Nat.shiftLeft_add_eq_or_of_lt hy]
  rw [hw]
  simp only [BitVec.toNat_append, Nat.shiftLeft_eq]
  rw [join _ _ w.b1.isLt, join _ _ w.b2.isLt, join _ _ w.b3.isLt]
  ring

end Sys2Proof.Machine
end

