-- ==== Sys2Proof/Laws/Field.lean ====
section
/-! SUPPORT. GF(2^8) and the S-boxes: the facts later proofs cite. -/

namespace Sys2Proof.Machine

theorem xtime_xor (a b : Byte) : xtime (a ^^^ b) = xtime a ^^^ xtime b := by
  have cancel : ∀ c d e : Byte, c ^^^ e ^^^ (d ^^^ e) = c ^^^ d := by
    intro c d e
    rw [show c ^^^ e ^^^ (d ^^^ e) = c ^^^ d ^^^ (e ^^^ e) by ac_rfl, BitVec.xor_self,
      BitVec.xor_zero]
  simp only [xtime, BitVec.shiftLeft_xor_distrib, BitVec.getLsbD_xor]
  cases a.getLsbD 7 <;> cases b.getLsbD 7
  · simp
  · simp [BitVec.xor_assoc]
  · simp only [Bool.xor_false, if_true, Bool.false_eq_true, if_false]
    rw [show (0x00 : Byte) = 0#8 from rfl, BitVec.xor_zero]
    ac_rfl
  · simp [cancel]

@[simp] theorem xtime_zero : xtime 0x00 = 0x00 := by decide

@[simp] theorem invSbox_sbox (x : Byte) : invSbox (sbox x) = x := by
  revert x; decide +kernel

@[simp] theorem sbox_invSbox (x : Byte) : sbox (invSbox x) = x := by
  revert x; decide +kernel

/-! The constants of the column mixes (spec/40_field_and_sbox.md R123). -/

theorem mul_01 (a : Byte) : mul a 0x01 = a := by revert a; decide +kernel

theorem mul_02 (a : Byte) : mul a 0x02 = xtime a := by revert a; decide +kernel

theorem mul_03 (a : Byte) : mul a 0x03 = xtime a ^^^ a := by revert a; decide +kernel

theorem mul_09 (a : Byte) : mul a 0x09 = xtime (xtime (xtime a)) ^^^ a := by
  revert a; decide +kernel

theorem mul_0b (a : Byte) : mul a 0x0b = xtime (xtime (xtime a)) ^^^ xtime a ^^^ a := by
  revert a; decide +kernel

theorem mul_0d (a : Byte) : mul a 0x0d = xtime (xtime (xtime a)) ^^^ xtime (xtime a) ^^^ a := by
  revert a; decide +kernel

theorem mul_0e (a : Byte) :
    mul a 0x0e = xtime (xtime (xtime a)) ^^^ xtime (xtime a) ^^^ xtime a := by
  revert a; decide +kernel

/-- The loop of R123 adds to its running sum. -/
theorem mulBits_acc (n : Nat) (a b p : Byte) : mulBits n a b p = p ^^^ mulBits n a b 0x00 := by
  induction n generalizing a b p with
  | zero => simp [mulBits]
  | succ n ih =>
    simp only [mulBits]
    rw [ih, ih (xtime a) (b >>> 1) (if b.getLsbD 0 then 0x00 ^^^ a else 0x00)]
    split <;> simp [BitVec.xor_assoc]

/-- The field product distributes over the sum of multiplicands. -/
theorem mul_xor_left (a b c : Byte) : mul (a ^^^ b) c = mul a c ^^^ mul b c := by
  have key : ∀ n a b c, mulBits n (a ^^^ b) c 0x00 = mulBits n a c 0x00 ^^^ mulBits n b c 0x00 := by
    intro n
    induction n with
    | zero => intro a b c; simp [mulBits]
    | succ n ih =>
      intro a b c
      simp only [mulBits]
      rw [mulBits_acc, mulBits_acc n (xtime a), mulBits_acc n (xtime b), xtime_xor, ih]
      split
      · ac_rfl
      · simp
  exact key 8 a b c

/-- A sum of bytes with a repeated term drops it. -/
theorem xor_cancel_left (a b : Byte) : a ^^^ (a ^^^ b) = b := by
  rw [← BitVec.xor_assoc, BitVec.xor_self, BitVec.zero_xor]

/-- The field product distributes over the sum of multipliers. -/
theorem mul_xor_right (a b c : Byte) : mul a (b ^^^ c) = mul a b ^^^ mul a c := by
  have swap : ∀ x y z w : Byte, x ^^^ y ^^^ (z ^^^ w) = x ^^^ z ^^^ (y ^^^ w) := by
    intros; ac_rfl
  have bit : ∀ (x : Byte) (p q : Bool), (if (p ^^ q) = true then (0x00 : Byte) ^^^ x else 0x00) =
      (if p = true then 0x00 ^^^ x else 0x00) ^^^ if q = true then 0x00 ^^^ x else 0x00 := by
    intro x p q
    cases p <;> cases q <;> simp
  have key : ∀ n a b c, mulBits n a (b ^^^ c) 0x00 = mulBits n a b 0x00 ^^^ mulBits n a c 0x00 := by
    intro n
    induction n with
    | zero => intro a b c; simp [mulBits]
    | succ n ih =>
      intro a b c
      simp only [mulBits]
      rw [mulBits_acc, mulBits_acc n (xtime a) (b >>> 1), mulBits_acc n (xtime a) (c >>> 1),
        BitVec.ushiftRight_xor_distrib, ih, BitVec.getLsbD_xor, bit, swap]
  exact key 8 a b c

/-- The field product commutes with multiplication by x. -/
theorem xtime_mul (a b : Byte) : mul (xtime a) b = xtime (mul a b) := by
  have key : ∀ n a b, mulBits n (xtime a) b 0x00 = xtime (mulBits n a b 0x00) := by
    intro n
    induction n with
    | zero => intro a b; exact xtime_zero.symm
    | succ n ih =>
      intro a b
      simp only [mulBits]
      rw [mulBits_acc, mulBits_acc n (xtime a), xtime_xor, ih]
      split <;> simp only [xtime_xor, xtime_zero]
  exact key 8 a b

/-- The field product is commutative: it is bilinear, and it is so on the eight powers of x. -/
theorem fieldMul_comm (a b : Byte) : mul a b = mul b a := by
  have zero : ∀ b : Byte, mul 0x00 b = mul b 0x00 := by decide +kernel
  have basis : ∀ i ∈ [0, 1, 2, 3, 4, 5, 6, 7], ∀ b : Byte,
      mul ((0x01 : Byte) <<< i) b = mul b ((0x01 : Byte) <<< i) := by decide +kernel
  have fold : ∀ l : List Nat, (∀ i ∈ l, i ∈ [0, 1, 2, 3, 4, 5, 6, 7]) →
      mul (l.foldr (fun i x => (if a.getLsbD i then (0x01 : Byte) <<< i else 0x00) ^^^ x) 0x00) b =
        mul b (l.foldr (fun i x => (if a.getLsbD i then (0x01 : Byte) <<< i else 0x00) ^^^ x) 0x00) := by
    intro l hl
    induction l with
    | nil => exact zero b
    | cons i l ih =>
      rw [List.foldr_cons, mul_xor_left, mul_xor_right, ih fun j hj => hl j (by simp [hj])]
      congr 1
      split
      · exact basis i (hl i (by simp)) b
      · exact zero b
  have sum : ∀ a : Byte, [0, 1, 2, 3, 4, 5, 6, 7].foldr
      (fun i x => (if a.getLsbD i then (0x01 : Byte) <<< i else 0x00) ^^^ x) 0x00 = a := by
    decide +kernel
  have := fold [0, 1, 2, 3, 4, 5, 6, 7] fun i hi => hi
  rwa [sum a] at this

end Sys2Proof.Machine
end

