-- ==== Sys2Proof/Laws/Memory.lean ====
section
/-! SUPPORT. MEM: read after write, the canonical form, and byte sequences. -/

namespace Sys2Proof.Machine

@[simp] theorem read_nil (a : Nat) : Memory.read [] a = none := rfl

theorem read_write_same (m : Memory) (a : Nat) (b : Byte) : (Memory.write m a b).read a = some b := by
  induction m with
  | nil => simp [Memory.write, Memory.read]
  | cons c m ih =>
    obtain ⟨k, x⟩ := c
    simp only [Memory.write]
    split
    · simp [Memory.read]
    · split
      · simp [Memory.read]
      · next h1 h2 => simp [Memory.read, Ne.symm h2, ih]

theorem read_write_other (m : Memory) {a c : Nat} (b : Byte) (h : c ≠ a) :
    (Memory.write m a b).read c = Memory.read m c := by
  induction m with
  | nil => simp [Memory.write, Memory.read, Ne.symm h]
  | cons d m ih =>
    obtain ⟨k, x⟩ := d
    simp only [Memory.write]
    split
    · simp [Memory.read, Ne.symm h]
    · split
      · next h1 h2 => subst h2; simp [Memory.read, Ne.symm h]
      · simp [Memory.read, ih]

/-- Every entry of a written MEM is the new byte or was there before. -/
theorem mem_write {m : Memory} {a : Nat} {b : Byte} {c : Host.Cell} (h : c ∈ Memory.write m a b) :
    c = (a, b) ∨ c ∈ m := by
  induction m with
  | nil => simpa [Memory.write] using h
  | cons d m ih =>
    obtain ⟨k, x⟩ := d
    simp only [Memory.write] at h
    split at h
    · simpa using h
    · split at h
      · rcases List.mem_cons.1 h with h | h
        · exact .inl h
        · exact .inr (List.mem_cons_of_mem _ h)
      · rcases List.mem_cons.1 h with h | h
        · exact .inr (by simp [h])
        · exact (ih h).imp id (List.mem_cons_of_mem _)

/-- A write keeps the canonical form. -/
theorem write_wf {m : Memory} (a : Nat) (b : Byte) (h : Memory.wf m) : Memory.wf (m.write a b) := by
  induction m with
  | nil => simp [Memory.write, Memory.wf]
  | cons d m ih =>
    obtain ⟨k, x⟩ := d
    obtain ⟨hk, hm⟩ := List.pairwise_cons.1 h
    simp only [Memory.write]
    split
    · next h1 =>
      refine List.pairwise_cons.2 ⟨fun c hc => ?_, h⟩
      rcases List.mem_cons.1 hc with rfl | hc
      · exact h1
      · exact Nat.lt_trans h1 (hk c hc)
    · split
      · next h2 => subst h2; exact List.pairwise_cons.2 ⟨fun c hc => hk c hc, hm⟩
      · next h1 h2 =>
        refine List.pairwise_cons.2 ⟨fun c hc => ?_, ih hm⟩
        rcases mem_write hc with rfl | hc
        · simp only; omega
        · exact hk c hc

theorem writeBytes_wf {m : Memory} (a : Nat) (bs : List Byte) (h : Memory.wf m) :
    Memory.wf (m.writeBytes a bs) := by
  induction bs generalizing m a with
  | nil => exact h
  | cons b bs ih => exact ih _ (write_wf a b h)

/-- Writing inside a bound keeps every entry inside it. -/
theorem writeBytes_inside {m : Memory} {a n : Nat} {bs : List Byte} (ha : a + bs.length ≤ n)
    (h : ∀ c ∈ m, c.1 < n) : ∀ c ∈ Memory.writeBytes m a bs, c.1 < n := by
  induction bs generalizing m a with
  | nil => exact h
  | cons b bs ih =>
    simp only [List.length_cons] at ha
    refine ih (by omega) fun c hc => ?_
    rcases mem_write hc with rfl | hc
    · simp only; omega
    · exact h c hc

theorem read_writeBytes_outside (m : Memory) {a c : Nat} {bs : List Byte}
    (h : c < a ∨ a + bs.length ≤ c) : (Memory.writeBytes m a bs).read c = Memory.read m c := by
  induction bs generalizing m a with
  | nil => rfl
  | cons b bs ih =>
    simp only [List.length_cons] at h
    simp only [Memory.writeBytes]
    rw [ih _ (by omega), read_write_other _ _ (by omega)]

theorem read_writeBytes_inside (m : Memory) {a k : Nat} {bs : List Byte} (h : k < bs.length) :
    (Memory.writeBytes m a bs).read (a + k) = bs[k]? := by
  induction bs generalizing m a k with
  | nil => simp at h
  | cons b bs ih =>
    simp only [Memory.writeBytes]
    cases k with
    | zero =>
      rw [read_writeBytes_outside _ (.inl (by omega))]
      exact read_write_same m a b
    | succ k =>
      have := ih (m.write a b) (a := a + 1) (k := k) (by simpa using h)
      rw [show a + (k + 1) = a + 1 + k by omega, this]
      rfl

/-! ### Reading through the state -/

theorem readByte_of_read {s : State} {a : Nat} {b : Byte} (h : Memory.read s.mem a = some b) :
    s.readByte a = b := by
  simp [State.readByte, h]

/-- Two states with the same MEM and the same counter read the same byte. -/
theorem readByte_congr {s t : State} {a : Nat} (hm : Memory.read t.mem a = Memory.read s.mem a)
    (ht : t.ticks = s.ticks) : t.readByte a = s.readByte a := by
  simp [State.readByte, hm, ht]

@[simp] theorem length_readBytes (s : State) (a n : Nat) : (s.readBytes a n).length = n := by
  induction n generalizing a with
  | zero => rfl
  | succ n ih => simp [State.readBytes, ih]

theorem getElem?_readBytes (s : State) {a n k : Nat} (h : k < n) :
    (s.readBytes a n)[k]? = some (s.readByte (a + k)) := by
  induction n generalizing a k with
  | zero => omega
  | succ n ih =>
    cases k with
    | zero => rfl
    | succ k =>
      have := ih (a := a + 1) (k := k) (by omega)
      simp only [State.readBytes, List.getElem?_cons_succ, this]
      rw [show a + 1 + k = a + (k + 1) by omega]

/-- Bytes that MEM lists are read back as they are listed. -/
theorem readBytes_of_read {s : State} {a : Nat} {bs : List Byte}
    (h : ∀ k, k < bs.length → Memory.read s.mem (a + k) = bs[k]?) :
    s.readBytes a bs.length = bs := by
  refine List.ext_getElem? fun k => ?_
  by_cases hk : k < bs.length
  · rw [getElem?_readBytes s hk]
    have := h k hk
    rw [List.getElem?_eq_getElem hk] at this ⊢
    rw [readByte_of_read this]
  · rw [List.getElem?_eq_none (by simpa using hk), List.getElem?_eq_none (by simpa using hk)]

@[simp] theorem inRange_iff (s : State) (a n : Nat) :
    s.inRange a n = true ↔ a + n ≤ s.cfg.memBytes := by
  simp [State.inRange]

@[simp] theorem inRange_false_iff (s : State) (a n : Nat) :
    s.inRange a n = false ↔ s.cfg.memBytes < a + n := by
  simp [State.inRange]

end Sys2Proof.Machine
end

