-- ==== Sys2Proof/Laws/Exec.lean ====
section
/-! SUPPORT. What the shared operations of the meanings can do, and the message functions' lengths. -/

namespace Sys2Proof.Machine

@[simp] theorem fail_eq (e : ErrCode) (i : Instr) (s : State) :
    fail e i s = .next (raiseError e (encode i) s) := rfl

@[simp] theorem mapNext_next (f : State → State) (s : State) : mapNext f (.next s) = .next (f s) := rfl

/-- `mapNext` answers a next state exactly when the outcome does. -/
theorem mapNext_eq_next {f : State → State} {r : Result} {t : State} :
    mapNext f r = .next t ↔ ∃ u, r = .next u ∧ t = f u := by
  cases r with
  | next u => simp [mapNext, eq_comm]
  | fault r => simp [mapNext]
  | refused r => simp [mapNext]

/-- The error raised by a command other than KEXP leaves KVALID alone. -/
theorem dropsKey_of_ne {i : Instr} (e : ErrCode) (h : encode i ≠ encode .kexp) :
    dropsKey e (encode i) = false := by
  simp [dropsKey, h]

/-- What delivering an output does: the output, or MEM_RANGE. -/
theorem deliver_cases (i : Instr) (bs : List Byte) (s : State) :
    (s.dst.toNat + bs.length ≤ s.cfg.memBytes ∧ deliver i bs s = .next (writeOutput bs s)) ∨
      (s.cfg.memBytes < s.dst.toNat + bs.length ∧
        deliver i bs s = .next (raiseError .memRange (encode i) s)) := by
  by_cases h : s.dst.toNat + bs.length ≤ s.cfg.memBytes
  · exact .inl ⟨h, by simp [deliver, h]⟩
  · exact .inr ⟨by omega, by simp [deliver, h]⟩

/-- What the end of DECMSG does: PAD_RANGE, or delivery of the unpadded bytes. -/
theorem unpadAndDeliver_cases (d : List Byte) (s : State) :
    ((d.length = 0 ∨ d.length < finalByte d) ∧
        unpadAndDeliver d s = .next (raiseError .padRange (encode .decmsg) s)) ∨
      (d.length ≠ 0 ∧ finalByte d ≤ d.length ∧
        unpadAndDeliver d s = deliver .decmsg (unpad d) s) := by
  by_cases h0 : d.length = 0
  · exact .inl ⟨.inl h0, by simp [unpadAndDeliver, h0]⟩
  · by_cases h1 : d.length < finalByte d
    · exact .inl ⟨.inr h1, by simp [unpadAndDeliver, h0, h1]⟩
    · exact .inr ⟨h0, by omega, by simp [unpadAndDeliver, h0, h1]⟩

/-! ### Lengths (spec/45_message_ecb.md R190 to R193) -/

theorem padCount_pos (l : Nat) : 1 ≤ padCount l := by unfold padCount; omega

theorem padCount_le (l : Nat) : padCount l ≤ 16 := by unfold padCount; omega

@[simp] theorem length_pad (p : List Byte) : (pad p).length = 16 * (p.length / 16 + 1) := by
  simp only [pad, List.length_append, List.length_replicate, padCount]
  omega

@[simp] theorem length_mapBlocks (f : Block → Block) (n : Nat) (l : List Byte) :
    (mapBlocks f n l).length = 16 * n := by
  induction n generalizing l with
  | zero => rfl
  | succ n ih => simp [mapBlocks, ih]; omega

@[simp] theorem length_encryptMessage (w : Vector Word 44) (p : List Byte) :
    (encryptMessage w p).length = 16 * (p.length / 16 + 1) := by
  rw [encryptMessage, length_mapBlocks, length_pad]
  omega

theorem length_decryptBlocks (w : Vector Word 44) {c : List Byte} (h : c.length % 16 = 0) :
    (decryptBlocks w c).length = c.length := by
  rw [decryptBlocks, length_mapBlocks]
  omega

@[simp] theorem length_unpad (d : List Byte) : (unpad d).length = d.length - finalByte d := by
  simp [unpad]

/-- Block `k` of a mapped sequence is the image of block `k` (`k` below the number of blocks). -/
theorem drop_take_mapBlocks (f : Block → Block) {n k : Nat} (l : List Byte) (h : k < n) :
    ((mapBlocks f n l).drop (16 * k)).take 16 =
      blockBytes (f (blockOfBytes ((l.drop (16 * k)).take 16))) := by
  induction n generalizing k l with
  | zero => omega
  | succ n ih =>
    cases k with
    | zero => exact List.take_left' rfl
    | succ k =>
      have h16 : 16 * (k + 1) = (blockBytes (f (blockOfBytes (l.take 16)))).length + 16 * k := by
        simp; omega
      rw [mapBlocks, h16, List.drop_append, Nat.add_sub_cancel_left,
        List.drop_of_length_le (by omega), List.nil_append, ih _ (by omega), List.drop_drop]
      simp

end Sys2Proof.Machine
end

