-- ==== Sys2Proof/Laws/HostBus.lean ====
section
/-! SUPPORT. The register map and the host's transactions, said once. -/

namespace Sys2Proof.Machine

theorem rkLoc_cases (n : Nat) :
    (∃ i, rkLoc n = .rk i ∧ n = 0x100 + 4 * i.val) ∨
      (rkLoc n = .reserved ∧ ¬ (0x100 ≤ n ∧ n < 0x1B0 ∧ n % 4 = 0)) := by
  by_cases h : 0x100 ≤ n ∧ n < 0x1B0 ∧ n % 4 = 0
  · exact .inl ⟨⟨(n - 0x100) / 4, by omega⟩, by rw [rkLoc, dif_pos h], by simp only; omega⟩
  · exact .inr ⟨by rw [rkLoc, dif_neg h], h⟩

/-- A register offset is one of the table, a key-schedule Word, or reserved. -/
theorem registerLoc_cases (n : Nat) :
    (∃ l, (n, l) ∈ registerTable ∧ registerLoc n = l) ∨
      ((∀ l, (n, l) ∉ registerTable) ∧ registerLoc n = rkLoc n) := by
  unfold registerLoc
  cases h : registerTable.lookup n with
  | some l =>
    refine .inl ⟨l, ?_, rfl⟩
    obtain ⟨l₁, l₂, h', -⟩ := List.lookup_eq_some_iff.1 h
    simp [h']
  | none =>
    refine .inr ⟨fun l hl => ?_, rfl⟩
    have := List.lookup_eq_none_iff.1 h _ hl
    simp at this

/-- No offset below 0x10000 selects MEM. -/
theorem registerLoc_ne_mem (n a : Nat) : registerLoc n ≠ .mem a := by
  obtain ⟨l, hl, h⟩ | ⟨-, h⟩ := registerLoc_cases n
  · rw [h]
    rintro rfl
    simp [registerTable] at hl
  · rw [h]
    obtain ⟨i, h, -⟩ | ⟨h, -⟩ := rkLoc_cases n <;> simp [h]

/-- Only offset 0 selects CMD. -/
theorem registerLoc_eq_cmd {n : Nat} (h : registerLoc n = .cmd) : n = 0 := by
  obtain ⟨l, hl, h'⟩ | ⟨-, h'⟩ := registerLoc_cases n
  · rw [h'] at h
    subst h
    simpa [registerTable] using hl
  · rw [h'] at h
    obtain ⟨i, h', -⟩ | ⟨h', -⟩ := rkLoc_cases n <;> simp [h'] at h

/-- Only offset 4 selects STATUS. -/
theorem registerLoc_eq_status {n : Nat} (h : registerLoc n = .status) : n = 4 := by
  obtain ⟨l, hl, h'⟩ | ⟨-, h'⟩ := registerLoc_cases n
  · rw [h'] at h
    subst h
    simpa [registerTable] using hl
  · rw [h'] at h
    obtain ⟨i, h', -⟩ | ⟨h', -⟩ := rkLoc_cases n <;> simp [h'] at h

theorem locate_register (cfg : Config) {off : BitVec 17} (h : off.toNat < 0x10000) :
    locate cfg off = registerLoc off.toNat := by
  rw [locate, if_pos h]

theorem locate_mem (cfg : Config) {off : BitVec 17} {a : Nat} (h : off.toNat = 0x10000 + a)
    (ha : a < cfg.memBytes) : locate cfg off = .mem a := by
  have h1 : ¬ off.toNat < 0x10000 := by omega
  have h2 : off.toNat - 0x10000 = a := by omega
  rw [locate, if_neg h1, h2, if_pos ha]

theorem locate_beyond (cfg : Config) {off : BitVec 17} {a : Nat} (h : off.toNat = 0x10000 + a)
    (ha : cfg.memBytes ≤ a) : locate cfg off = .reserved := by
  have h1 : ¬ off.toNat < 0x10000 := by omega
  have h2 : off.toNat - 0x10000 = a := by omega
  rw [locate, if_neg h1, h2, if_neg (by omega)]

/-- An offset that selects a MEM byte is in the MEM window, and the byte is inside MEM. -/
theorem locate_eq_mem {cfg : Config} {off : BitVec 17} {a : Nat} (h : locate cfg off = .mem a) :
    off.toNat = 0x10000 + a ∧ a < cfg.memBytes := by
  unfold locate at h
  split at h
  · exact absurd h (registerLoc_ne_mem _ _)
  · split at h
    · next h1 h2 =>
      injection h with h
      exact ⟨by omega, by omega⟩
    · cases h

theorem locate_eq_cmd {cfg : Config} {off : BitVec 17} (h : locate cfg off = .cmd) : off = 0x000 := by
  unfold locate at h
  split at h
  · exact BitVec.eq_of_toNat_eq (registerLoc_eq_cmd h)
  · split at h <;> cases h

theorem locate_eq_status {cfg : Config} {off : BitVec 17} (h : locate cfg off = .status) :
    off = 0x004 := by
  unfold locate at h
  split at h
  · exact BitVec.eq_of_toNat_eq (registerLoc_eq_status h)
  · split at h <;> cases h

/-- A 32-bit access that is no bus error is 4-aligned. -/
theorem busError_word {off : BitVec 17} (h : busError off 32 = false) : off.toNat % 4 = 0 := by
  simpa [busError] using h

/-- The widths that are no bus error. -/
theorem busError_width {off : BitVec 17} {width : Nat} (h : busError off width = false) :
    width = 32 ∨ (width = 8 ∧ 0x10000 ≤ off.toNat) := by
  unfold busError at h
  split at h
  · exact .inl ‹_›
  · split at h
    · exact .inr ⟨‹_›, by simpa using h⟩
    · cases h

/-! ### What one transaction does -/

/-- A read is a bus error, an 8-bit read of the MEM window, or an aligned 32-bit read. -/
theorem hostRead_cases (off : BitVec 17) (width : Nat) (s : State) :
    (busError off width = true ∧ hostRead off width s = respond .busError s) ∨
    (width = 8 ∧ 0x10000 ≤ off.toNat ∧ hostRead off width s =
      receive (.data8 (s.readLoc8 (locate s.cfg off)))
        ((s.readLoc8 (locate s.cfg off)).setWidth 32) s) ∨
    (width = 32 ∧ off.toNat % 4 = 0 ∧ hostRead off width s =
      closeWindow (locate s.cfg off)
        (receive (.data32 (s.readLoc32 (locate s.cfg off))) (s.readLoc32 (locate s.cfg off)) s)) := by
  cases hb : busError off width with
  | true => exact .inl ⟨rfl, by rw [hostRead, if_pos hb]⟩
  | false =>
    rw [hostRead, if_neg (by simp [hb])]
    rcases busError_width hb with rfl | ⟨rfl, h⟩
    · exact .inr (.inr ⟨rfl, busError_word hb, by rw [if_neg (by decide)]⟩)
    · exact .inr (.inl ⟨rfl, h, by rw [if_pos rfl]⟩)

/-- A write is a bus error, an 8-bit write of the MEM window, or an aligned 32-bit write. -/
theorem hostWrite_cases (off : BitVec 17) (width : Nat) (v : Reg) (s : State) :
    (busError off width = true ∧ hostWrite off width v s = respond .busError s) ∨
    (width = 8 ∧ 0x10000 ≤ off.toNat ∧ hostWrite off width v s =
      respond .written (writeLoc8 (locate s.cfg off) v s)) ∨
    (width = 32 ∧ off.toNat % 4 = 0 ∧ hostWrite off width v s =
      respond .written (writeLoc32 (locate s.cfg off) v s)) := by
  cases hb : busError off width with
  | true => exact .inl ⟨rfl, by rw [hostWrite, if_pos hb]⟩
  | false =>
    rw [hostWrite, if_neg (by simp [hb])]
    rcases busError_width hb with rfl | ⟨rfl, h⟩
    · exact .inr (.inr ⟨rfl, busError_word hb, by rw [if_neg (by decide)]⟩)
    · exact .inr (.inl ⟨rfl, h, by rw [if_pos rfl]⟩)

/-- An 8-bit write stores one byte of MEM or does nothing. -/
theorem writeLoc8_cases (l : Loc) (v : Reg) (s : State) :
    (∃ a, l = .mem a ∧ writeLoc8 l v s = s.writeBytes a [v.extractLsb' 0 8]) ∨
      writeLoc8 l v s = s := by
  cases l with
  | mem a => exact .inl ⟨a, rfl, rfl⟩
  | _ => exact .inr rfl

/-- What a 32-bit write may do: issue a command, clear the error, or change operand registers, S
and four bytes of MEM. -/
theorem writeLoc32_cases (l : Loc) (v : Reg) (s : State) :
    (l = .cmd ∧ writeLoc32 l v s = issueCommand v s) ∨
    (l = .status ∧ writeLoc32 l v s = writeStatus v s) ∨
    (∃ a, l = .mem a ∧ writeLoc32 l v s = s.writeBytes a (wordBytes (toWord v))) ∨
    ∃ src len dst wa wb st, writeLoc32 l v s =
      { s with src := src, len := len, dst := dst, wa := wa, wb := wb, st := st } := by
  cases l with
  | cmd => exact .inl ⟨rfl, rfl⟩
  | status => exact .inr (.inl ⟨rfl, rfl⟩)
  | mem a => exact .inr (.inr (.inl ⟨a, rfl, rfl⟩))
  | _ => exact .inr (.inr (.inr ⟨_, _, _, _, _, _, rfl⟩))

/-- A STATUS write clears ERR or does nothing. -/
theorem writeStatus_cases (v : Reg) (s : State) :
    (v.getLsbD 31 = true ∧ writeStatus v s = clearError s) ∨
      (v.getLsbD 31 = false ∧ writeStatus v s = s) := by
  cases h : v.getLsbD 31 with
  | true => exact .inl ⟨rfl, by rw [writeStatus, if_pos h]⟩
  | false => exact .inr ⟨rfl, by rw [writeStatus, h]; rfl⟩

/-- A CMD write is accepted or discarded (spec/30_encoding.md R91). -/
theorem issueCommand_cases (v : Reg) (s : State) :
    (s.err = .noError ∧ issueCommand v s = acceptCommand v (Config.busySteps v s) s) ∨
      (s.err ≠ .noError ∧ issueCommand v s = s) := by
  by_cases h : s.err = .noError
  · exact .inl ⟨h, by rw [issueCommand, if_pos h]⟩
  · exact .inr ⟨h, by rw [issueCommand, if_neg h]⟩

/-- A read closes the window only where it is a read of STATUS with BUSY = 0. -/
theorem closeWindow_cases (l : Loc) (s : State) :
    (l = .status ∧ s.busy = false ∧ closeWindow l s = { s with window := false }) ∨
      (¬ (l = .status ∧ s.busy = false) ∧ closeWindow l s = s) := by
  by_cases h : l = .status ∧ s.busy = false
  · exact .inl ⟨h.1, h.2, by rw [closeWindow, if_pos h]⟩
  · exact .inr ⟨h, by rw [closeWindow, if_neg h]⟩

end Sys2Proof.Machine
end

