-- ==== Sys2Proof/Laws/Meanings.lean ====
section
/-! SUPPORT. What each meaning answers, case by case: the provers cite these and unfold no meaning. -/

namespace Sys2Proof.Machine

theorem execRconxor_cases (j : BitVec 4) (s : State) :
    (1 ≤ j.toNat ∧ j.toNat ≤ 10 ∧
      execRconxor j s = .next { s with wa := word32 (wxor (toWord s.wa) (rcon j.toNat)) }) ∨
    (¬ (1 ≤ j.toNat ∧ j.toNat ≤ 10) ∧
      execRconxor j s = .next (raiseError .illegalCmd (encode (.rconxor j)) s)) := by
  by_cases h : 1 ≤ j.toNat ∧ j.toNat ≤ 10
  · exact .inl ⟨h.1, h.2, by rw [execRconxor, if_pos h]⟩
  · exact .inr ⟨h, by rw [execRconxor, if_neg h, fail_eq]⟩

theorem execAddrk_cases (r : BitVec 4) (s : State) :
    (∃ h : r.toNat < 11, s.kvalid = true ∧ execAddrk r s =
      .next (applyToBlock (fun b => addRoundKey b (roundKey s.w ⟨r.toNat, h⟩)) s)) ∨
    (r.toNat ≤ 10 ∧ s.kvalid = false ∧
      execAddrk r s = .next (raiseError .noKey (encode (.addrk r)) s)) ∨
    (10 < r.toNat ∧ execAddrk r s = .next (raiseError .illegalCmd (encode (.addrk r)) s)) := by
  by_cases h : r.toNat ≤ 10
  · cases hk : s.kvalid with
    | true =>
      refine .inl ⟨by omega, rfl, ?_⟩
      rw [execAddrk, dif_pos h, if_neg (by simp [hk])]
    | false =>
      refine .inr (.inl ⟨h, rfl, ?_⟩)
      rw [execAddrk, dif_pos h, if_pos hk, fail_eq]
  · exact .inr (.inr ⟨by omega, by rw [execAddrk, dif_neg h, fail_eq]⟩)

theorem execLdstate_cases (s : State) :
    (s.src.toNat + 16 ≤ s.cfg.memBytes ∧ execLdstate s =
      .next (applyToBlock (fun _ => blockOfBytes (s.readBytes s.src.toNat 16)) s)) ∨
    (s.cfg.memBytes < s.src.toNat + 16 ∧
      execLdstate s = .next (raiseError .memRange (encode .ldstate) s)) := by
  by_cases h : s.src.toNat + 16 ≤ s.cfg.memBytes
  · exact .inl ⟨h, by rw [execLdstate, if_pos ((inRange_iff _ _ _).2 h)]⟩
  · exact .inr ⟨by omega, by rw [execLdstate, if_neg (by simpa using h), fail_eq]⟩

theorem execStstate_cases (s : State) :
    (s.dst.toNat + 16 ≤ s.cfg.memBytes ∧
      execStstate s = .next (s.writeBytes s.dst.toNat (blockBytes s.st))) ∨
    (s.cfg.memBytes < s.dst.toNat + 16 ∧
      execStstate s = .next (raiseError .memRange (encode .ststate) s)) := by
  by_cases h : s.dst.toNat + 16 ≤ s.cfg.memBytes
  · exact .inl ⟨h, by rw [execStstate, if_pos ((inRange_iff _ _ _).2 h)]⟩
  · exact .inr ⟨by omega, by rw [execStstate, if_neg (by simpa using h), fail_eq]⟩

theorem execKexp_cases (s : State) :
    (s.len = 16 ∧ s.src.toNat + 16 ≤ s.cfg.memBytes ∧ execKexp s =
      .next { s with w := expand (s.readBytes s.src.toNat 16), kvalid := true }) ∨
    (s.len ≠ 16 ∧ execKexp s = .next (raiseError .configError (encode .kexp) s)) ∨
    (s.len = 16 ∧ s.cfg.memBytes < s.src.toNat + 16 ∧
      execKexp s = .next (raiseError .memRange (encode .kexp) s)) := by
  by_cases hl : s.len = 16
  · by_cases h : s.src.toNat + 16 ≤ s.cfg.memBytes
    · refine .inl ⟨hl, h, ?_⟩
      rw [execKexp, if_neg (not_not.2 hl), if_neg (by simpa using h)]
    · refine .inr (.inr ⟨hl, by omega, ?_⟩)
      rw [execKexp, if_neg (not_not.2 hl), if_pos (by simpa using h), fail_eq]
  · exact .inr (.inl ⟨hl, by rw [execKexp, if_pos hl, fail_eq]⟩)

theorem execEncblk_cases (s : State) :
    (s.kvalid = true ∧ execEncblk s = .next (applyToBlock (cipher s.w) s)) ∨
    (s.kvalid = false ∧ execEncblk s = .next (raiseError .noKey (encode .encblk) s)) := by
  cases hk : s.kvalid with
  | true => exact .inl ⟨rfl, by rw [execEncblk, if_neg (by simp [hk])]⟩
  | false => exact .inr ⟨rfl, by rw [execEncblk, if_pos hk, fail_eq]⟩

theorem execDecblk_cases (s : State) :
    (s.kvalid = true ∧ execDecblk s = .next (applyToBlock (invCipher s.w) s)) ∨
    (s.kvalid = false ∧ execDecblk s = .next (raiseError .noKey (encode .decblk) s)) := by
  cases hk : s.kvalid with
  | true => exact .inl ⟨rfl, by rw [execDecblk, if_neg (by simp [hk])]⟩
  | false => exact .inr ⟨rfl, by rw [execDecblk, if_pos hk, fail_eq]⟩

/-- What ENCMSG answers. -/
theorem execEncmsg_cases (s : State) :
    (s.kvalid = true ∧ s.src.toNat + s.len.toNat ≤ s.cfg.memBytes ∧
      s.dst.toNat + 16 * (s.len.toNat / 16 + 1) ≤ s.cfg.memBytes ∧
      execEncmsg s = .next
        (writeOutput (encryptMessage s.w (s.readBytes s.src.toNat s.len.toNat)) s)) ∨
    (s.kvalid = false ∧ execEncmsg s = .next (raiseError .noKey (encode .encmsg) s)) ∨
    (s.kvalid = true ∧ (s.cfg.memBytes < s.src.toNat + s.len.toNat ∨
        s.cfg.memBytes < s.dst.toNat + 16 * (s.len.toNat / 16 + 1)) ∧
      execEncmsg s = .next (raiseError .memRange (encode .encmsg) s)) := by
  cases hk : s.kvalid with
  | false => exact .inr (.inl ⟨rfl, by rw [execEncmsg, if_pos hk, fail_eq]⟩)
  | true =>
    rw [execEncmsg, if_neg (by simp [hk])]
    by_cases hs : s.src.toNat + s.len.toNat ≤ s.cfg.memBytes
    · rw [if_neg (by simpa using hs)]
      obtain ⟨hd, h⟩ | ⟨hd, h⟩ := deliver_cases .encmsg
        (encryptMessage s.w (s.readBytes s.src.toNat s.len.toNat)) s
      · simp only [length_encryptMessage, length_readBytes] at hd
        exact .inl ⟨rfl, hs, hd, h⟩
      · simp only [length_encryptMessage, length_readBytes] at hd
        exact .inr (.inr ⟨rfl, .inr hd, h⟩)
    · refine .inr (.inr ⟨rfl, .inl (by omega), ?_⟩)
      rw [if_pos (by simpa using hs), fail_eq]

/-- What DECMSG answers, with `d` the decrypted bytes. -/
theorem execDecmsg_cases (s : State) (d : List Byte)
    (hd : d = decryptBlocks s.w (s.readBytes s.src.toNat s.len.toNat)) :
    (s.kvalid = true ∧ s.len.toNat % 16 = 0 ∧ s.src.toNat + s.len.toNat ≤ s.cfg.memBytes ∧
      s.len.toNat ≠ 0 ∧ finalByte d ≤ s.len.toNat ∧
      s.dst.toNat + (s.len.toNat - finalByte d) ≤ s.cfg.memBytes ∧
      execDecmsg s = .next (writeOutput (unpad d) s)) ∨
    (s.kvalid = false ∧ execDecmsg s = .next (raiseError .noKey (encode .decmsg) s)) ∨
    (s.kvalid = true ∧ s.len.toNat % 16 ≠ 0 ∧
      execDecmsg s = .next (raiseError .lenAlign (encode .decmsg) s)) ∨
    (s.kvalid = true ∧ s.len.toNat % 16 = 0 ∧ s.src.toNat + s.len.toNat ≤ s.cfg.memBytes ∧
      (s.len.toNat = 0 ∨ s.len.toNat < finalByte d) ∧
      execDecmsg s = .next (raiseError .padRange (encode .decmsg) s)) ∨
    (s.kvalid = true ∧ s.len.toNat % 16 = 0 ∧
      (s.cfg.memBytes < s.src.toNat + s.len.toNat ∨
        (s.src.toNat + s.len.toNat ≤ s.cfg.memBytes ∧ s.len.toNat ≠ 0 ∧
          finalByte d ≤ s.len.toNat ∧
          s.cfg.memBytes < s.dst.toNat + (s.len.toNat - finalByte d))) ∧
      execDecmsg s = .next (raiseError .memRange (encode .decmsg) s)) := by
  cases hk : s.kvalid with
  | false => exact .inr (.inl ⟨rfl, by rw [execDecmsg, if_pos hk, fail_eq]⟩)
  | true =>
    rw [execDecmsg, if_neg (by simp [hk])]
    by_cases ha : s.len.toNat % 16 = 0
    · rw [if_neg (not_not.2 ha)]
      by_cases hs : s.src.toNat + s.len.toNat ≤ s.cfg.memBytes
      · have hl : d.length = s.len.toNat := by
          rw [hd, length_decryptBlocks _ (by simpa using ha), length_readBytes]
        rw [if_neg (by simpa using hs), ← hd]
        obtain ⟨h0, h⟩ | ⟨h0, h1, h⟩ := unpadAndDeliver_cases d s
        · rw [hl] at h0
          exact .inr (.inr (.inr (.inl ⟨rfl, ha, hs, h0, h⟩)))
        · rw [hl] at h0 h1
          rw [h]
          obtain ⟨h2, h⟩ | ⟨h2, h⟩ := deliver_cases .decmsg (unpad d) s
          · rw [length_unpad, hl] at h2
            exact .inl ⟨rfl, ha, hs, h0, h1, h2, h⟩
          · rw [length_unpad, hl] at h2
            exact .inr (.inr (.inr (.inr ⟨rfl, ha, .inr ⟨hs, h0, h1, h2⟩, h⟩)))
      · refine .inr (.inr (.inr (.inr ⟨rfl, ha, .inl (by omega), ?_⟩)))
        rw [if_pos (by simpa using hs), fail_eq]
    · exact .inr (.inr (.inl ⟨rfl, ha, by rw [if_pos ha, fail_eq]⟩))

/-- Every command but KEXP keeps KVALID when it fails: its word is not KEXP's. -/
theorem encode_ne_kexp {i : Instr} (h : i ≠ .kexp) : encode i ≠ encode .kexp := by
  cases i with
  | kexp => exact absurd rfl h
  | addrk r => revert r; decide +kernel
  | rconxor j => revert j; decide +kernel
  | _ => decide

/-- R225 for a command other than KEXP. -/
theorem raiseError_failed {i : Instr} (e : ErrCode) (s : State) (h : i ≠ .kexp) :
    raiseError e (encode i) s = failed e (encode i) s := by
  simp [raiseError, failed, dropsKey_of_ne e (encode_ne_kexp h)]

/-- What a command that does not fail may change: `t` is its next state from `s`. Every field not
named here is unchanged. -/
structure Ran (i : Instr) (s t : State) : Prop where
  cfg : t.cfg = s.cfg
  src : t.src = s.src
  len : t.len = s.len
  dst : t.dst = s.dst
  wb : t.wb = s.wb
  err : t.err = s.err
  errcmd : t.errcmd = s.errcmd
  pend : t.pend = s.pend
  window : t.window = s.window
  hostProg : t.hostProg = s.hostProg
  hostPc : t.hostPc = s.hostPc
  hostLast : t.hostLast = s.hostLast
  responses : t.responses = s.responses
  busyLeft : t.busyLeft = s.busyLeft
  ticks : t.ticks = s.ticks
  mem : t.mem = s.mem ∨ (i = .ststate ∨ i = .encmsg ∨ i = .decmsg) ∧
    ∃ bs, s.dst.toNat + bs.length ≤ s.cfg.memBytes ∧
      t.mem = Memory.writeBytes s.mem s.dst.toNat bs
  schedule : i ≠ .kexp ∧ t.w = s.w ∧ t.kvalid = s.kvalid ∨
    i = .kexp ∧ s.len = 16 ∧ s.src.toNat + 16 ≤ s.cfg.memBytes ∧
      t.w = expand (s.readBytes s.src.toNat 16) ∧ t.kvalid = true
  outlen : t.outlen ≠ s.outlen → i = .encmsg ∨ i = .decmsg
  wa : t.wa ≠ s.wa → i = .rotword ∨ i = .subword ∨ i = .xorword ∨ ∃ j, i = .rconxor j
  st : t.st ≠ s.st → i = .subbytes ∨ i = .invsubbytes ∨ i = .shiftrows ∨ i = .invshiftrows ∨
    i = .mixcolumns ∨ i = .invmixcolumns ∨ (∃ r, i = .addrk r) ∨ i = .ldstate ∨ i = .encblk ∨
    i = .decblk

/-- What `exec` can answer: the command ran, or it raised an error. -/
theorem exec_cases (i : Instr) (s : State) :
    (∃ t, exec i s = .next t ∧ Ran i s t) ∨
      ∃ e, e ≠ .noError ∧ exec i s = .next (raiseError e (encode i) s) := by
  cases i with
  | rconxor j =>
    obtain ⟨_, _, h⟩ | ⟨_, h⟩ := execRconxor_cases j s
    · exact .inl ⟨_, h, by constructor <;> simp⟩
    · exact .inr ⟨_, by decide, h⟩
  | addrk r =>
    obtain ⟨_, _, h⟩ | ⟨_, _, h⟩ | ⟨_, h⟩ := execAddrk_cases r s
    · exact .inl ⟨_, h, by constructor <;> simp⟩
    · exact .inr ⟨_, by decide, h⟩
    · exact .inr ⟨_, by decide, h⟩
  | ldstate =>
    obtain ⟨_, h⟩ | ⟨_, h⟩ := execLdstate_cases s
    · exact .inl ⟨_, h, by constructor <;> simp⟩
    · exact .inr ⟨_, by decide, h⟩
  | ststate =>
    obtain ⟨hr, h⟩ | ⟨_, h⟩ := execStstate_cases s
    · refine .inl ⟨_, h, ?_⟩
      constructor
      case mem => exact .inr ⟨by simp, _, by simpa using hr, rfl⟩
      all_goals simp
    · exact .inr ⟨_, by decide, h⟩
  | kexp =>
    obtain ⟨h1, h2, h⟩ | ⟨_, h⟩ | ⟨_, _, h⟩ := execKexp_cases s
    · exact .inl ⟨_, h, by constructor <;> simp [h1, h2]⟩
    · exact .inr ⟨_, by decide, h⟩
    · exact .inr ⟨_, by decide, h⟩
  | encblk =>
    obtain ⟨_, h⟩ | ⟨_, h⟩ := execEncblk_cases s
    · exact .inl ⟨_, h, by constructor <;> simp⟩
    · exact .inr ⟨_, by decide, h⟩
  | decblk =>
    obtain ⟨_, h⟩ | ⟨_, h⟩ := execDecblk_cases s
    · exact .inl ⟨_, h, by constructor <;> simp⟩
    · exact .inr ⟨_, by decide, h⟩
  | encmsg =>
    obtain ⟨_, _, hr, h⟩ | ⟨_, h⟩ | ⟨_, _, h⟩ := execEncmsg_cases s
    · refine .inl ⟨_, h, ?_⟩
      constructor
      case mem => exact .inr ⟨by simp, _, by simpa using hr, rfl⟩
      all_goals simp
    · exact .inr ⟨_, by decide, h⟩
    · exact .inr ⟨_, by decide, h⟩
  | decmsg =>
    obtain ⟨_, ha, _, _, _, hr, h⟩ | ⟨_, h⟩ | ⟨_, _, h⟩ | ⟨_, _, _, _, h⟩ | ⟨_, _, _, h⟩ :=
      execDecmsg_cases s _ rfl
    · refine .inl ⟨_, h, ?_⟩
      constructor
      case mem =>
        refine .inr ⟨by simp, _, ?_, rfl⟩
        rw [length_unpad, length_decryptBlocks _ (by simpa using ha)]
        simpa using hr
      all_goals simp
    all_goals exact .inr ⟨_, by decide, h⟩
  | nop => exact .inl ⟨_, rfl, by constructor <;> simp⟩
  | subbytes => exact .inl ⟨_, rfl, by constructor <;> simp⟩
  | invsubbytes => exact .inl ⟨_, rfl, by constructor <;> simp⟩
  | shiftrows => exact .inl ⟨_, rfl, by constructor <;> simp⟩
  | invshiftrows => exact .inl ⟨_, rfl, by constructor <;> simp⟩
  | mixcolumns => exact .inl ⟨_, rfl, by constructor <;> simp⟩
  | invmixcolumns => exact .inl ⟨_, rfl, by constructor <;> simp⟩
  | rotword => exact .inl ⟨_, rfl, by constructor <;> simp⟩
  | subword => exact .inl ⟨_, rfl, by constructor <;> simp⟩
  | xorword => exact .inl ⟨_, rfl, by constructor <;> simp⟩

end Sys2Proof.Machine
end

