-- ==== Sys2Proof/Laws/Step.lean ====
section
/-! SUPPORT. What one step can do, said once. -/

namespace Sys2Proof.Machine

/-- Performing a word: its command's meaning and then the end of the command, or ILLEGAL_CMD. -/
theorem performCommand_cases {v : Reg} {s t : State} (h : performCommand v s = .next t) :
    (∃ i u, decode v = .ok i ∧ exec i s = .next u ∧ t = finishCommand u) ∨
      ((∃ e, decode v = .error e) ∧ t = finishCommand (raiseError .illegalCmd v s)) := by
  unfold performCommand at h
  split at h
  · next i hi =>
    obtain ⟨u, hu, rfl⟩ := mapNext_eq_next.1 h
    exact .inl ⟨i, u, hi, hu, rfl⟩
  · next e he => exact .inr ⟨⟨e, he⟩, by simpa using h.symm⟩

/-- A host step: its effect, where the line is no hazard. -/
theorem hostStep_next {op : HostOp} {s t : State} (h : hostStep op s = .next t) :
    hazard op s = false ∧ t = tick (hostEffect op (hostMove s)) := by
  unfold hostStep at h
  split at h
  · cases h
  · next hz => exact ⟨by simpa using hz, by simpa using h.symm⟩

theorem engineTurn_iff (s : State) : s.engineTurn = true ↔ s.busyLeft = 0 ∨ s.hostOp = none := by
  simp [State.engineTurn]

/-- What a step can do: perform the pending command, take the host's line, or idle. -/
theorem step_cases {s t : State} (h : step s = .next t) :
    (∃ v, EngineMoves v s ∧ performCommand v s = .next t) ∨
      (∃ op, HostMoves op s ∧ hazard op s = false ∧
        t = tick (hostEffect op (hostMove s))) ∨
      (s.pend = none ∧ s.hostOp = none ∧ t = s) := by
  unfold step advance at h
  split at h
  · next v hv =>
    split at h
    · next hturn => exact .inl ⟨v, ⟨hv, (engineTurn_iff s).1 hturn⟩, h⟩
    · next hturn =>
      rw [engineTurn_iff] at hturn
      unfold hostTurn at h
      split at h
      · next op hop =>
        obtain ⟨hz, ht⟩ := hostStep_next h
        exact .inr (.inl ⟨op, ⟨hop, .inr fun hb => hturn (.inl hb)⟩, hz, ht⟩)
      · next hop => exact absurd (.inr hop) hturn
  · next hv =>
    unfold hostTurn at h
    split at h
    · next op hop =>
      obtain ⟨hz, ht⟩ := hostStep_next h
      exact .inr (.inl ⟨op, ⟨hop, .inl hv⟩, hz, ht⟩)
    · next hop => exact .inr (.inr ⟨hv, hop, by simpa using h.symm⟩)

/-- On the engine's turn a step performs PEND. -/
theorem step_engine {v : Reg} {s : State} (h : EngineMoves v s) : step s = performCommand v s := by
  obtain ⟨hv, ht⟩ := h
  simp [step, advance, hv, (engineTurn_iff s).2 ht]

/-- On the host's turn a step takes the host's line. -/
theorem step_host {op : HostOp} {s : State} (h : HostMoves op s) : step s = hostStep op s := by
  obtain ⟨hop, hp⟩ := h
  unfold step advance
  split
  · next v hv =>
    have hb : s.busyLeft ≠ 0 := by
      rcases hp with hp | hp
      · rw [hp] at hv; cases hv
      · exact hp
    have : s.engineTurn = false := by simp [State.engineTurn, hb, hop]
    simp [this, hostTurn, hop]
  · simp [hostTurn, hop]

/-- Outside the hazard window no line is a hazard. -/
theorem hazard_of_window {op : HostOp} {s : State} (h : s.window = false) : hazard op s = false := by
  simp [hazard, h]

/-- A host line outside the window completes. -/
theorem step_host_open {op : HostOp} {s : State} (h : HostMoves op s) (hw : s.window = false) :
    step s = .next (tick (hostEffect op (hostMove s))) := by
  rw [step_host h, hostStep, hazard_of_window hw]
  rfl

/-! ### Runs -/

/-- A run of `n + 1` steps is a step and a run of `n`. -/
theorem run_succ (M : Host.Core) (n : Nat) {s t : M.State} (h : M.step s = .next t) :
    M.run (n + 1) s = M.run n t := by
  simp [Host.Core.run, h]

/-- Runs compose. -/
theorem run_add (M : Host.Core) (n m : Nat) {s t : M.State} (h : M.run n s = .next t) :
    M.run (n + m) s = M.run m t := by
  induction n generalizing s with
  | zero => cases h; simp
  | succ n ih =>
    rw [show n + 1 + m = (n + m) + 1 by omega]
    cases hs : M.step s with
    | next u => simp only [Host.Core.run, hs] at h ⊢; exact ih h
    | fault r => simp [Host.Core.run, hs] at h
    | refused r => simp [Host.Core.run, hs] at h

/-- `run_succ` for this machine. -/
theorem core_run_succ {n : Nat} {s t : State} (h : step s = .next t) :
    Sys2Proof.core.run (n + 1) s = Sys2Proof.core.run n t := run_succ Sys2Proof.core n h

/-- `run_add` for this machine. -/
theorem core_run_add {n m : Nat} {s t : State} (h : Sys2Proof.core.run n s = .next t) :
    Sys2Proof.core.run (n + m) s = Sys2Proof.core.run m t := run_add Sys2Proof.core n m h

end Sys2Proof.Machine
end

