-- ==== Sys2Proof/Tests/Slice0.lean ====
section
/-! SUPPORT. The model's own tests, on values of spec/95_test_vectors.md, and for every obligation with
hypotheses the states that meet them. -/

namespace Sys2Proof.Tests

open Sys2Proof Sys2Proof.Machine

/-! ### Helpers -/

/-- The `n` bytes of a number written in hex, most significant first. -/
def hex (n v : Nat) : List Byte :=
  (List.range n).map fun i => BitVec.ofNat 8 (v / 256 ^ (n - 1 - i))

/-- A block written as 32 hex digits. -/
def block (v : Nat) : Block := blockOfBytes (hex 16 v)

def k1 : List Byte := hex 16 0x2b7e151628aed2a6abf7158809cf4f3c

def k2 : List Byte := hex 16 0x000102030405060708090a0b0c0d0e0f

/-- A state with a valid schedule. -/
def keyed (k : List Byte) : State := { State.reset with w := expand k, kvalid := true }

/-- A state with bytes in MEM at `a`. -/
def stored (a : Nat) (bs : List Byte) (s : State) : State := s.writeBytes a bs

/-- A state whose host program is one line. -/
def hosted (op : HostOp) (s : State) : State := { s with hostProg := [op] }

/-- A state in which the engine's step on `v` is next. -/
def pending (v : Reg) (s : State) : State := acceptCommand v 0 s

/-- The outcome is a next state that meets `p`. -/
def nextIs (r : Result) (p : State → Bool) : Bool :=
  match r with
  | .next t => p t
  | .fault _ => false
  | .refused _ => false

/-! ### WellFormed (spec/30_encoding.md R98) -/

theorem test_wf_addrk_11 : (Instr.addrk 11).wf = false := by decide

theorem test_wf_addrk_10 : (Instr.addrk 10).wf = true := by decide

theorem test_wf_rconxor_0 : (Instr.rconxor 0).wf = false := by decide

theorem test_wf_rconxor_11 : (Instr.rconxor 11).wf = false := by decide

theorem test_wf_rconxor_1 : (Instr.rconxor 1).wf = true := by decide

/-! ### Decode: the words of R95 bit by bit (RSV, IMM, OPC), and V11 -/

theorem test_decode_control :
    decode 0b00000000000000000000000000000000#32 = .ok .nop := rfl

theorem test_decode_block :
    decode 0b00000000000000000000000000000001#32 = .ok .kexp ∧
    decode 0b00000000000000000000000000000010#32 = .ok .encblk ∧
    decode 0b00000000000000000000000000000011#32 = .ok .decblk := ⟨rfl, rfl, rfl⟩

theorem test_decode_message :
    decode 0b00000000000000000000000000000100#32 = .ok .encmsg ∧
    decode 0b00000000000000000000000000000101#32 = .ok .decmsg := ⟨rfl, rfl⟩

theorem test_decode_load_store :
    decode 0b00000000000000000000000000000110#32 = .ok .ldstate ∧
    decode 0b00000000000000000000000000000111#32 = .ok .ststate := ⟨rfl, rfl⟩

theorem test_decode_state :
    decode 0b00000000000000000000000000010000#32 = .ok .subbytes ∧
    decode 0b00000000000000000000000000010001#32 = .ok .invsubbytes ∧
    decode 0b00000000000000000000000000010010#32 = .ok .shiftrows ∧
    decode 0b00000000000000000000000000010011#32 = .ok .invshiftrows ∧
    decode 0b00000000000000000000000000010100#32 = .ok .mixcolumns ∧
    decode 0b00000000000000000000000000010101#32 = .ok .invmixcolumns ∧
    decode 0b00000000000000000000101000010110#32 = .ok (.addrk 10) :=
  ⟨rfl, rfl, rfl, rfl, rfl, rfl, rfl⟩

theorem test_decode_word :
    decode 0b00000000000000000000000000100000#32 = .ok .rotword ∧
    decode 0b00000000000000000000000000100001#32 = .ok .subword ∧
    decode 0b00000000000000000000000000100010#32 = .ok .xorword ∧
    decode 0b00000000000000000000000100100011#32 = .ok (.rconxor 1) := ⟨rfl, rfl, rfl, rfl⟩

theorem test_decode_illegal :
    decode 0x00000f16 = .error .roundIndex ∧ decode 0x00000b23 = .error .constantIndex ∧
    decode 0x00000008 = .error .unassignedOpcode ∧ decode 0x0000000f = .error .unassignedOpcode ∧
    decode 0x0000001f = .error .unassignedOpcode ∧ decode 0x00000024 = .error .unassignedOpcode ∧
    decode 0x000000ff = .error .unassignedOpcode ∧ decode 0x00001000 = .error .reservedBits ∧
    decode 0x00000120 = .error .immediateNotZero ∧ decode 0x00000102 = .error .immediateNotZero :=
  ⟨rfl, rfl, rfl, rfl, rfl, rfl, rfl, rfl, rfl, rfl⟩

/-- R98's own examples. -/
theorem test_encode : encode (.addrk 10) = 0x00000A16 ∧ encode (.rconxor 1) = 0x00000123 := by decide

theorem test_decodeTableWord :
    decodeTableWord 32 0x00000516 = some (.addrk 5) ∧ decodeTableWord 32 0x00000017 = none := by
  decide

/-- V7, through the fetch: RCONXOR 1 on WA = 0. -/
theorem test_withFetchWord :
    nextIs (step (State.reset.withFetchWord 32 0x00000123))
      (fun t => t.wa == 0x01000000 && t.pend == none) = true := by decide

/-! ### Field and S-box: V5, V6 -/

theorem test_xtime : xtime 0x57 = 0xae ∧ xtime 0x8e = 0x07 := by decide

theorem test_mul : mul 0x57 0x83 = 0xc1 ∧ mul 0xff 0xff = 0x13 ∧ mul 0x0e 0x09 = 0x7e := by decide

theorem test_sbox : sbox 0x53 = 0xed ∧ sbox 0xff = 0x16 ∧ invSbox 0x63 = 0x00 ∧ invSbox 0x10 = 0x7c := by
  decide

/-- R127: rc(j+1) = xtime(rc(j)). -/
theorem test_rc : ∀ j ∈ [1, 2, 3, 4, 5, 6, 7, 8, 9], rc (j + 1) = xtime (rc j) := by decide

/-! ### Word commands: V7 -/

theorem test_rotword :
    nextIs (exec .rotword { State.reset with wa := 0x09cf4f3c }) (fun t => t.wa == 0xcf4f3c09) = true := by
  decide

theorem test_subword :
    nextIs (exec .subword { State.reset with wa := 0xcf4f3c09 }) (fun t => t.wa == 0x8a84eb01) = true := by
  decide

theorem test_xorword :
    nextIs (exec .xorword { State.reset with wa := 0x8b84eb01, wb := 0x2b7e1516 })
      (fun t => t.wa == 0xa0fafe17 && t.wb == 0x2b7e1516) = true := by decide

theorem test_rconxor :
    nextIs (exec (.rconxor 10) { State.reset with wa := 0x36000000 }) (fun t => t.wa == 0) = true := by
  decide

/-- Log entry 10: an ill-formed operand, which no word decodes to. -/
theorem test_rconxor_ill :
    nextIs (exec (.rconxor 11) { State.reset with wa := 5 })
      (fun t => t.wa == 5 && t.err == .illegalCmd) = true := by decide

/-! ### StateArray commands: V10, V13 -/

def s0 : State := { State.reset with st := block 0x000102030405060708090a0b0c0d0e0f }

theorem test_subbytes :
    nextIs (exec .subbytes s0) (fun t => t.st == block 0x637c777bf26b6fc53001672bfed7ab76) = true := by
  decide +kernel

theorem test_invsubbytes :
    nextIs (exec .invsubbytes s0) (fun t => t.st == block 0x52096ad53036a538bf40a39e81f3d7fb) = true := by
  decide +kernel

theorem test_shiftrows :
    nextIs (exec .shiftrows s0) (fun t => t.st == block 0x00050a0f04090e03080d02070c01060b) = true := by
  decide +kernel

theorem test_invshiftrows :
    nextIs (exec .invshiftrows s0) (fun t => t.st == block 0x000d0a0704010e0b0805020f0c090603) = true := by
  decide +kernel

theorem test_mixcolumns :
    nextIs (exec .mixcolumns { s0 with st := block 0xdb135345f20a225c01010101c6c6c6c6 })
      (fun t => t.st == block 0x8e4da1bc9fdc589d01010101c6c6c6c6) = true := by decide +kernel

theorem test_invmixcolumns :
    nextIs (exec .invmixcolumns s0) (fun t => t.st == block 0x0a0f080d0e0b0c090207000506030401) = true := by
  decide +kernel

theorem test_addrk :
    nextIs (exec (.addrk 1) { keyed k1 with st := Block.zero })
      (fun t => t.st == block 0xa0fafe1788542cb123a339392a6c7605) = true := by decide +kernel

theorem test_addrk_no_key :
    nextIs (exec (.addrk 10) s0)
      (fun t => t.st == s0.st && t.err == .noKey && t.errcmd == 0x00000a16) = true := by decide +kernel

def loaded : State :=
  stored 0x20 (hex 16 0x00112233445566778899aabbccddeeff)
    { State.reset with src := 0x20, dst := 0x28 }

theorem test_ldstate :
    nextIs (exec .ldstate loaded)
      (fun t => t.readLoc32 (.stateCol 0) == 0x00112233 && t.readLoc32 (.stateCol 3) == 0xccddeeff) =
      true := by decide +kernel

/-- V13, last row: the ranges overlap. -/
theorem test_ststate :
    nextIs (execAll [.ldstate, .ststate] loaded)
      (fun t => t.readBytes 0x28 16 == hex 16 0x00112233445566778899aabbccddeeff) = true := by
  decide +kernel

theorem test_ststate_range :
    nextIs (exec .ststate { loaded with dst := 4081 })
      (fun t => t.mem == loaded.mem && t.err == .memRange && t.errcmd == 7) = true := by decide +kernel

/-! ### Key schedule: V1 -/

/-- The last 16 bytes of MEM hold K1. -/
def keyAtTop : State := stored 4080 k1 { keyed k2 with src := 4080, len := 16 }

theorem test_kexp :
    nextIs (exec .kexp keyAtTop)
      (fun t => word32 t.w[4] == 0xa0fafe17 && word32 t.w[43] == 0xb6630ca6 && t.kvalid) = true := by
  decide +kernel

theorem test_kexp_config_before_range :
    nextIs (exec .kexp { keyAtTop with src := 4081, len := 15 })
      (fun t => t.w == expand k2 && !t.kvalid && t.err == .configError) = true := by decide +kernel

/-! ### Block cipher: V2, V3 -/

theorem test_encblk :
    nextIs (exec .encblk { keyed k1 with st := block 0x3243f6a8885a308d313198a2e0370734 })
      (fun t => t.st == block 0x3925841d02dc09fbdc118597196a0b32) = true := by decide +kernel

theorem test_decblk :
    nextIs (exec .decblk { keyed k2 with st := Block.zero })
      (fun t => t.st == block 0x7b1d29a16cf8ccab84f0b8a598e42fa6) = true := by decide +kernel

/-! ### Messages: V8 and V9 -/

/-- V8, M4 in place: 17 bytes. -/
theorem test_encmsg :
    nextIs (exec .encmsg
        (stored 0 (hex 17 0x00112233445566778899aabbccddeeff00) { keyed k2 with len := 17 }))
      (fun t => t.outlen == 32 && t.readBytes 0 32 ==
        hex 32 0x69c4e0d86a7b0430d8cdb78070b4c55a4c4d10e1f5542fef3e2da31ff4b4471a) = true := by
  decide +kernel

/-- V8, errors: the empty message at DST = 4081. -/
theorem test_encmsg_range :
    nextIs (exec .encmsg { keyed k2 with dst := 4081 })
      (fun t => t.err == .memRange && t.outlen == 0) = true := by decide +kernel

/-- V9, D7: malformed padding is truncated without a check. -/
def d7 : State := stored 0 (hex 16 0x1ba273970de699f041e0c862f3b4ffd9) { keyed k2 with len := 16, dst := 64 }

theorem test_decmsg :
    nextIs (exec .decmsg d7)
      (fun t => t.outlen == 13 && t.readBytes 64 13 == hex 13 0x41424344454647484950515253 &&
        t.mem.read 77 == none) = true := by decide +kernel

/-- V9, D5: the final byte is 0x11 and LEN is 16. -/
def d5 : State := stored 0 (hex 16 0x4493ada3306ce110f48157d8668959d7) { keyed k2 with len := 16, dst := 64 }

theorem test_decmsg_pad_range :
    nextIs (exec .decmsg d5) (fun t => t.err == .padRange && t.mem == d5.mem) = true := by decide +kernel

/-! ### The host's side: V12, R61, R100 -/

/-- STATUS = 0x00000032 with ERRCMD = 2. -/
def held : State := { State.reset with err := .noKey, kvalid := true, errcmd := 2 }

theorem test_status_write :
    nextIs (step (hosted (.write 0x004 32 0xFFFFFFFF) held))
      (fun t => t.status == 0x00000002 && t.errcmd == 2) = true ∧
    nextIs (step (hosted (.write 0x004 32 0x000000F3) held)) (fun t => t.status == 0x00000032) = true := by
  decide

theorem test_mem_packing :
    nextIs (step (hosted (.read 0x10009 8) (stored 8 (hex 4 0x2b7e1516) State.reset)))
      (fun t => t.responses == [.data8 0x7e] && t.hostLast == 0x7e) = true ∧
    nextIs (step (hosted (.read 0x10009 32) (stored 8 (hex 4 0x2b7e1516) State.reset)))
      (fun t => t.responses == [.busError]) = true := by decide +kernel

theorem test_window_offset :
    windowOffset { memBytes := 4096, engineBase := 0x20000 } 0x20004 = some 0x004 ∧
    windowOffset { memBytes := 4096, engineBase := 0x20000 } 0x40000 = none := by decide

/-- R100: `setkey a` is `wr SRC, a ; wr LEN, 16 ; cmd KEXP`. -/
theorem test_setkey : assemble (setkey 0x40) =
    [.write 0x008 32 0x40, .write 0x00C 32 16, .write 0x000 32 0x00000001] ++
      [.read 0x004 32, .mask 1, .bnz 3] := by decide

/-- R100: `ld16 MEM+a, h` with the block of V13. -/
theorem test_ld16 : assemble (ld16 0x20 (block 0x00112233445566778899aabbccddeeff)) =
    [.write 0x10020 32 0x00112233, .write 0x10024 32 0x44556677, .write 0x10028 32 0x8899aabb,
      .write 0x1002C 32 0xccddeeff] := by decide +kernel

/-- R100: `chk` and `clr`, placed from line 7. -/
theorem test_chk_clr : Fragment.seq [chk 99, clr] 7 =
    [.read 0x004 32, .mask 0xF0, .bnz 99, .write 0x004 32 0x80000000] := by decide

theorem test_hazard : step { hosted (.read 0x008 32) State.reset with window := true } =
    .fault .hazardViolation := by rfl

/-! ### Witnesses: for each obligation with hypotheses, states and operands that meet them together -/

/-- Clauses (a) to (e) of R94, and a legal word. -/
theorem witness_DecodeIllegalExactly :
    (0x00001000 : Reg).toNat / 4096 ≠ 0 ∧ (0x00000008 : Reg).toNat % 256 ∉ opcodeMap.map Prod.fst ∧
    decode 0x00000b16 = .error .roundIndex ∧ decode 0x00000023 = .error .constantIndex ∧
    decode 0x00000100 = .error .immediateNotZero ∧ decode 0x00000a16 = .ok (.addrk 10) := by
  refine ⟨by decide, by decide, rfl, rfl, rfl, rfl⟩

theorem witness_StepPerformsPend :
    EngineMoves 0x00000020 (pending 0x00000020 s0) ∧ decode 0x00000020 = .ok .rotword ∧
    EngineMoves 0x00000017 (pending 0x00000017 s0) ∧ decode 0x00000017 = .error .unassignedOpcode :=
  ⟨⟨rfl, .inl rfl⟩, rfl, ⟨rfl, .inl rfl⟩, rfl⟩

theorem witness_StepTakesHostLine : ∀ op ∈ [HostOp.read 0x008 32, .write 0x010 32 5, .mask 1, .bnz 9, .bz 9,
    .reset], HostMoves op (hosted op s0) ∧ (hosted op s0).window = false := by
  intro op _
  exact ⟨⟨rfl, .inl rfl⟩, rfl⟩

theorem witness_IdleStepChangesNothing : State.reset.pend = none ∧ State.reset.hostOp = none := ⟨rfl, rfl⟩

theorem witness_EveryCommandCompletes :
    nextIs (exec .nop s0) (fun t => t.err == s0.err) = true ∧
    nextIs (exec .encblk s0) (fun t => t.err != .noError && t.errcmd == 2) = true := by decide +kernel

theorem witness_OnlyHazardsStop :
    HostMoves (.read 0x004 8) { hosted (.read 0x004 8) s0 with window := true } ∧
    HostMoves (.write 0x000 32 0) { hosted (.write 0x000 32 0) s0 with
      window := true, pend := some 1, busyLeft := 1 } := ⟨⟨rfl, .inl rfl⟩, ⟨rfl, .inr (by decide)⟩⟩

theorem witness_InvAtReset :
    Config.legal { memBytes := 16, engineBase := 0 } = true ∧
    Config.legal { memBytes := 65536, engineBase := 0x20000 } = true := by decide

theorem inv_reset : State.reset.Inv := by
  refine ⟨by decide, List.Pairwise.nil, ?_, ?_, ?_, ?_⟩ <;> simp [State.reset, State.resetWith, State.busy]

/-- A state with a pending command that meets the invariant, and its step. -/
theorem inv_pending (v : Reg) : (pending v State.reset).Inv :=
  ⟨inv_reset.cfgLegal, inv_reset.memWf, inv_reset.memInside, fun _ => rfl, fun _ => rfl,
    inv_reset.keyHolds⟩

theorem witness_InvKeptByStep : (pending 0x00000001 State.reset).Inv ∧
    ∃ t, step (pending 0x00000001 State.reset) = .next t := ⟨inv_pending _, _, rfl⟩

theorem witness_CommandIssue :
    (hosted (.write 0x000 32 7) s0).hostOp = some (.write 0x000 32 7) ∧ s0.pend = none ∧
    s0.window = false ∧ s0.err = .noError ∧ held.err ≠ .noError ∧ held.pend = none ∧
    held.window = false := by decide +kernel

/-- Both values of BUSY. -/
theorem witness_StatusReadValue : HostMoves (.read 0x004 32) (hosted (.read 0x004 32) held) ∧
    HostMoves (.read 0x004 32)
      { hosted (.read 0x004 32) s0 with pend := some 1, window := true, busyLeft := 3 } :=
  ⟨⟨rfl, .inl rfl⟩, ⟨rfl, .inr (by decide)⟩⟩

theorem witness_StatusWriteClearsErr :
    (hosted (.write 0x004 32 0x80000000) held).hostOp = some (.write 0x004 32 0x80000000) ∧
    held.pend = none ∧ held.window = false ∧ (0x80000000 : Reg).getLsbD 31 = true ∧
    (0x7fffffff : Reg).getLsbD 31 = false := by decide

/-- A host line on offset `n`, and the hypotheses of the register maps. -/
def registerLine (op : HostOp) (n : Nat) : Bool :=
  decide ((hosted op s0).hostOp = some op ∧ (hosted op s0).pend = none ∧
    (hosted op s0).window = false ∧ (BitVec.ofNat 17 n).toNat < 0x10000 ∧
    (BitVec.ofNat 17 n).toNat % 4 = 0)

/-- Every clause: each register, the first and last STATEc and RKi, both ends of each reserved range. -/
theorem witness_RegisterReadMap : ([0x000, 0x004, 0x008, 0x00C, 0x010, 0x014, 0x018, 0x01C, 0x020, 0x030, 0x03C, 0x100,
    0x1AC, 0x024, 0x02C, 0x040, 0x0FC, 0x1B0, 0xFFFC] : List Nat).all
      (fun n => registerLine (.read (BitVec.ofNat 17 n) 32) n) = true := by decide +kernel

theorem witness_RegisterWriteMap : ([0x008, 0x00C, 0x010, 0x014, 0x018, 0x01C, 0x020, 0x030, 0x03C, 0x100, 0x1AC, 0x024,
    0xFFFC] : List Nat).all
      (fun n => registerLine (.write (BitVec.ofNat 17 n) 32 5) n && decide (n ≠ 0 ∧ n ≠ 4)) = true := by
  decide +kernel

/-- Each way to be a bus error, at a read and at a write. -/
theorem witness_BusErrorChangesNothing : ∀ p ∈ ([(0x008, 16), (0x10000, 0), (0x002, 32), (0x10001, 32),
      (0x000, 8), (0xFFFF, 8)] : List (BitVec 17 × Nat)),
    ((p.2 ≠ 8 ∧ p.2 ≠ 32) ∨ (p.2 = 32 ∧ p.1.toNat % 4 ≠ 0) ∨ (p.2 = 8 ∧ p.1.toNat < 0x10000)) ∧
    (hosted (.read p.1 p.2) s0).hostOp = some (.read p.1 p.2) ∧
    (hosted (.write p.1 p.2 1) s0).hostOp = some (.write p.1 p.2 1) ∧ s0.pend = none ∧
    s0.window = false := by decide +kernel

/-- The last byte, the last word, an unaligned one, and both ends of the range above MEM. -/
theorem witness_HostMemAccess : ∀ p ∈ ([(0x10FFF, 4095), (0x10FFC, 4092), (0x10001, 1), (0x11000, 4096), (0x1FFFC, 65532)] :
      List (BitVec 17 × Nat)),
    p.1.toNat = 0x10000 + p.2 ∧ s0.pend = none ∧ s0.window = false ∧
    (p.2 < s0.cfg.memBytes ∨ p.2 % 4 ≠ 0 ∨ s0.cfg.memBytes ≤ p.2 ∧ p.2 % 4 = 0) ∧
    (hosted (.write p.1 8 1) s0).hostOp = some (.write p.1 8 1) ∧
    (hosted (.read p.1 32) s0).hostOp = some (.read p.1 32) := by decide +kernel

/-- The window opens, closes at a STATUS read, and closes at a reset. -/
theorem witness_HazardWindow :
    nextIs (step (hosted (.write 0x000 32 7) s0)) (fun t => !s0.window && t.window) = true ∧
    nextIs (step { hosted (.read 0x004 32) s0 with window := true }) (fun t => !t.window) = true ∧
    nextIs (step { hosted .reset s0 with window := true }) (fun t => !t.window) = true := by
  decide +kernel

theorem witness_ResetValues :
    HostMoves .reset { hosted .reset held with pend := some 1, window := true, busyLeft := 2 } :=
  ⟨rfl, .inr (by decide)⟩

theorem witness_HostNotationLines : HostMoves (.mask 1) (hosted (.mask 1) s0) ∧
    HostMoves (.bnz 0) { hosted (.bnz 0) s0 with hostLast := 1 } ∧
    HostMoves (.bz 0) (hosted (.bz 0) s0) := ⟨⟨rfl, .inl rfl⟩, ⟨rfl, .inl rfl⟩, ⟨rfl, .inl rfl⟩⟩

/-- The `wait` of R100, with a command pending. -/
def waiting : State :=
  { pending 0x00000001 s0 with hostProg := assemble (Fragment.seq [wait]), busyLeft := 5 }

theorem witness_WaitLoopTerminates : waiting.hostProg[waiting.hostPc]? = some (.read 0x004 32) ∧
    waiting.hostProg[waiting.hostPc + 1]? = some (.mask 1) ∧
    waiting.hostProg[waiting.hostPc + 2]? = some (.bnz waiting.hostPc) := by decide +kernel

/-- Both KEXP errors, another command's, and an illegal word. -/
theorem witness_ErrorEntry : (keyAtTop.err = .noError ∧
    nextIs (exec .kexp { keyAtTop with len := 15 }) (fun t => t.err == .configError) = true ∧
    nextIs (exec .kexp { keyAtTop with src := 4081 }) (fun t => t.err == .memRange) = true ∧
    (Instr.addrk 0).wf = true ∧
    nextIs (exec (.addrk 0) s0) (fun t => t.err == .noKey) = true) ∧
    EngineMoves 0x80000002 (pending 0x80000002 s0) ∧ decode 0x80000002 = .error .reservedBits :=
  ⟨by decide +kernel, ⟨rfl, .inl rfl⟩, rfl⟩

/-- Each error code, at its boundary. -/
theorem witness_ErrorCauses :
    nextIs (exec .kexp { keyAtTop with len := 17 }) (fun t => t.err == .configError) = true ∧
    nextIs (exec .decmsg { d7 with kvalid := false }) (fun t => t.err == .noKey) = true ∧
    nextIs (exec .decmsg { d7 with len := 17 }) (fun t => t.err == .lenAlign) = true ∧
    nextIs (exec .decmsg { d7 with len := 0 }) (fun t => t.err == .padRange) = true ∧
    nextIs (exec .decmsg { d7 with dst := 4084 }) (fun t => t.err == .memRange) = true ∧
    nextIs (exec .ldstate { loaded with src := 4081 }) (fun t => t.err == .memRange) = true ∧
    nextIs (exec .encmsg { d7 with src := 4081 }) (fun t => t.err == .memRange) = true := by
  decide +kernel

theorem inv_held : (hosted (.write 0x004 32 0x80000000) { held with kvalid := false }).Inv :=
  ⟨inv_reset.cfgLegal, inv_reset.memWf, inv_reset.memInside,
    by intro h; simp [State.busy, hosted, held, State.reset, State.resetWith] at h,
    by intro h; simp [State.busy, hosted, held, State.reset, State.resetWith] at h,
    by intro h; simp [hosted] at h⟩

/-- ERR cleared, and ERR set by a failing command (ENCBLK without a key). -/
theorem witness_ErrIsSticky :
    (hosted (.write 0x004 32 0x80000000) { held with kvalid := false }).Inv ∧
    nextIs (step (hosted (.write 0x004 32 0x80000000) { held with kvalid := false }))
      (fun t => t.err == .noError) = true ∧
    (pending 0x00000002 State.reset).Inv ∧
    nextIs (step (pending 0x00000002 State.reset)) (fun t => t.err != .noError) = true :=
  ⟨inv_held, by decide, inv_pending _, by decide⟩

theorem witness_ErrcmdOnlyOnFailure : (pending 0x00000002 State.reset).Inv ∧
    EngineMoves 0x00000002 (pending 0x00000002 State.reset) ∧
    nextIs (step (pending 0x00000002 State.reset))
      (fun t => t.err != .noError && t.errcmd != State.reset.errcmd) = true :=
  ⟨inv_pending _, ⟨rfl, .inl rfl⟩, by decide⟩

/-- Each clause that a command may meet: W and KVALID, OUTLEN and MEM, WA, S. -/
theorem witness_WhoWritesWhat :
    nextIs (exec .kexp { keyAtTop with kvalid := false })
      (fun t => t.w != keyAtTop.w && t.kvalid) = true ∧
    nextIs (exec .decmsg d7) (fun t => t.outlen != d7.outlen && t.mem != d7.mem) = true ∧
    nextIs (exec (.rconxor 1) s0) (fun t => t.wa != s0.wa) = true ∧
    nextIs (exec .ldstate loaded) (fun t => t.st != loaded.st) = true := by decide +kernel

theorem witness_ScheduleOnlyByKexp : EngineMoves 0x00000001 (pending 0x00000001 keyAtTop) ∧
    nextIs (step (pending 0x00000001 keyAtTop)) (fun t => t.w != keyAtTop.w) = true :=
  ⟨⟨rfl, .inl rfl⟩, by decide +kernel⟩

theorem witness_NopOnlyEndsBusy : EngineMoves 0x00000000 (pending 0x00000000 s0) := ⟨rfl, .inl rfl⟩

theorem witness_SubwordSubstitutesBytes : ∃ u, exec .subword s0 = .next u ∧ exec .subword s0 = .next u :=
  ⟨_, rfl, rfl⟩

theorem witness_RconxorXorsConstant :
    (1 ≤ (1 : BitVec 4).toNat ∧ [1, 2, 4, 8, 16, 32, 64, 128, 27, 54][(1 : BitVec 4).toNat - 1]? = some 1) ∧
    ((10 : BitVec 4).toNat ≤ 10 ∧
      [1, 2, 4, 8, 16, 32, 64, 128, 27, 54][(10 : BitVec 4).toNat - 1]? = some 54) ∧
    (0 : BitVec 4).toNat = 0 ∧ 10 < (11 : BitVec 4).toNat := by decide

theorem witness_AddrkCommand : (keyed k1).kvalid = true ∧ s0.kvalid = false := by decide +kernel

/-- The last block of MEM, and one byte further. -/
theorem witness_LdstateCommand :
    ({ s0 with src := 4080 } : State).src.toNat + 16 ≤ s0.cfg.memBytes ∧
    s0.cfg.memBytes < ({ s0 with src := 4081 } : State).src.toNat + 16 := by decide +kernel

theorem witness_StstateCommand :
    ({ s0 with dst := 4080 } : State).dst.toNat + 16 ≤ s0.cfg.memBytes ∧
    s0.cfg.memBytes < ({ s0 with dst := 4081 } : State).dst.toNat + 16 := by decide +kernel

/-- The last block of MEM, all of it written. -/
theorem witness_LoadStoreLossless : keyAtTop.src = ({ keyAtTop with dst := 4080 } : State).dst ∧
    keyAtTop.src.toNat + 16 ≤ keyAtTop.cfg.memBytes ∧ (keyAtTop.mem.read 4095).isSome = true := by
  decide +kernel

/-- LEN = 15, SRC one too far, and the last place that fits. -/
theorem witness_KexpCommand : ({ keyAtTop with len := 15 } : State).len ≠ 16 ∧ keyAtTop.len = 16 ∧
    keyAtTop.cfg.memBytes < ({ keyAtTop with src := 4081 } : State).src.toNat + 16 ∧
    keyAtTop.src.toNat + 16 ≤ keyAtTop.cfg.memBytes := by decide +kernel

theorem witness_ExpandRecurrence : k1.length = 16 ∧ (4 ≤ 43 ∧ 43 < 44) := by decide +kernel

/-- V1: the states with WA = W[3], before W[4], and WA = W[42], before W[43]. -/
theorem witness_WordCommandsStepSchedule : k1.length = 16 ∧
    ({ State.reset with wa := 0x09cf4f3c } : State).wa = word32 (expand k1)[4 - 1] ∧ 4 % 4 = 0 ∧
    ({ State.reset with wa := 0xe13f0cc8 } : State).wa = word32 (expand k1)[43 - 1] ∧ 43 % 4 ≠ 0 := by
  decide +kernel

theorem witness_BlockCommands : (keyed k1).kvalid = true ∧ s0.kvalid = false := by decide +kernel

theorem witness_BlockCommandsArePrimitiveSequences :
    (keyed k1).kvalid = true ∧ encSequence.length = 40 ∧ decSequence.length = 40 := by decide +kernel

theorem witness_CipherInverse : (keyed k2).kvalid = true := by decide +kernel

theorem witness_EncryptMessageByBlocks : 1 < (hex 17 0x1122).length / 16 + 1 := by decide +kernel

/-- V8, errors table: LEN = 4080 fills MEM. -/
def fullMessage : State := { keyed k2 with len := 4080 }

/-- LEN = 0 at the end of MEM, its one block at the last place. -/
def emptyMessage : State := { keyed k2 with src := 4096, dst := 4080 }

theorem witness_EncmsgCommand : ∀ s ∈ [fullMessage, emptyMessage],
    s.cfg.legal = true ∧ s.kvalid = true ∧ s.src.toNat + s.len.toNat ≤ s.cfg.memBytes ∧
    s.dst.toNat + 16 * (s.len.toNat / 16 + 1) ≤ s.cfg.memBytes := by decide +kernel

/-- V8, M3: sixteen bytes, two blocks of output, at the first SRC and the first DST that do not fit. -/
def srcOut : State := { keyed k2 with len := 16, src := 4081 }

def dstOut : State := { keyed k2 with len := 16, dst := 4065 }

theorem witness_EncmsgErrors : s0.kvalid = false ∧
    (srcOut.kvalid = true ∧ srcOut.cfg.memBytes < srcOut.src.toNat + srcOut.len.toNat) ∧
    (dstOut.kvalid = true ∧
      dstOut.cfg.memBytes < dstOut.dst.toNat + 16 * (dstOut.len.toNat / 16 + 1)) := by
  decide +kernel

/-- V9: D2 has n = LEN and writes nothing, so DST = 4096 is the last that fits; D3 has n = 0. -/
def d2 : State :=
  stored 0 (hex 16 0x954f64f2e4e86e9eee82d20216684899) { keyed k2 with len := 16, dst := 4096 }

theorem witness_DecmsgCommand : d2.kvalid = true ∧ d2.len.toNat % 16 = 0 ∧
    d2.src.toNat + d2.len.toNat ≤ d2.cfg.memBytes ∧
    (decryptBlocks d2.w (d2.readBytes d2.src.toNat d2.len.toNat)).getLast? = some 0x10 ∧
    (0x10 : Byte).toNat ≤ d2.len.toNat ∧
    d2.dst.toNat + (d2.len.toNat - (0x10 : Byte).toNat) ≤ d2.cfg.memBytes := by decide +kernel

theorem witness_DecmsgErrors : s0.kvalid = false ∧ d5.kvalid = true ∧
    ({ d5 with len := 15 } : State).len.toNat % 16 ≠ 0 ∧
    (({ d5 with len := 0 } : State).kvalid = true ∧ ({ d5 with len := 0 } : State).len = 0 ∧
      ({ d5 with len := 0 } : State).src.toNat + ({ d5 with len := 0 } : State).len.toNat ≤
        d5.cfg.memBytes) ∧
    d5.cfg.memBytes < ({ d5 with src := 4081 } : State).src.toNat + d5.len.toNat ∧
    (d5.len.toNat % 16 = 0 ∧ d5.src.toNat + d5.len.toNat ≤ d5.cfg.memBytes ∧
      (decryptBlocks d5.w (d5.readBytes d5.src.toNat d5.len.toNat)).getLast? = some 0x11 ∧
      d5.len.toNat < (0x11 : Byte).toNat) ∧
    ((decryptBlocks d7.w (d7.readBytes d7.src.toNat d7.len.toNat)).getLast? = some 0x03 ∧
      d7.cfg.memBytes < ({ d7 with dst := 4084 } : State).dst.toNat + (d7.len.toNat - 3)) := by
  decide +kernel

/-- Seventeen bytes encrypted in place, then decrypted to the last place that fits. -/
def inPlace : State := { keyed k2 with len := 17 }

theorem witness_EncmsgThenDecmsgRestores : inPlace.cfg.legal = true ∧ inPlace.kvalid = true ∧
    inPlace.src.toNat + inPlace.len.toNat ≤ inPlace.cfg.memBytes ∧
    inPlace.dst.toNat + 16 * (inPlace.len.toNat / 16 + 1) ≤ inPlace.cfg.memBytes ∧
    (4079 : Reg).toNat + inPlace.len.toNat ≤ inPlace.cfg.memBytes := by decide +kernel

end Sys2Proof.Tests
end

section
/-! PROOFS. The invariant holds right after reset (spec/70_reset_and_hazards.md R250). -/

namespace Sys2Proof.Machine

/-- With MEM unwritten, no command pending and no valid key, the invariant asks only for legal
parameters: its other clauses speak of written bytes, of a pending command or of an expanded key. -/
theorem inv_of_cleared {s : State} (hcfg : s.cfg.legal = true) (hmem : s.mem = [])
    (hpend : s.pend = none) (hkey : s.kvalid = false) : s.Inv where
  cfgLegal := hcfg
  memWf := by simp [hmem, Memory.wf]
  memInside := by simp [hmem]
  busyWindow := by simp [State.busy, hpend]
  busyNoError := by simp [State.busy, hpend]
  keyHolds := by simp [hkey]

theorem inv_resetWith {c : Config} (hc : c.legal = true) : (State.resetWith c).Inv :=
  inv_of_cleared hc rfl rfl rfl

/-- The default parameters are among those of spec/00_scope.md R8. -/
theorem legal_standard : Config.standard.legal = true := by decide

/-- Settles O9: reset leaves MEM unwritten, no command pending and KVALID = 0. -/
theorem invAtReset : Obligations.InvAtReset :=
  ⟨inv_resetWith legal_standard, fun _ hc => inv_resetWith hc⟩

end Sys2Proof.Machine
end

section
/-! PROOFS. What a step does to the engine, case by case: the engine's own step, a host line and
reset, in the terms the statements of spec/10_state.md use. -/

namespace Sys2Proof.Machine

/-! ### The engine's step -/

/-- A word has at most one command, and it is that command's word (spec/30_encoding.md R94, R95). -/
theorem encode_of_decode {v : Reg} {i : Instr} (h : decode v = .ok i) : encode i = v := by
  unfold decode at h
  split at h
  · next hv =>
    obtain ⟨-, hopc, himm⟩ := decodeOpcode_sound h
    obtain ⟨hrsv', hopc', himm'⟩ := Laws.fields_of_parts (opcodeOf i) (immOf i)
    exact word_fields_ext (hrsv'.trans hv.symm) (hopc'.trans hopc) (himm'.trans himm)
  · cases h

/-- The engine's step on the word `v`: the command runs, or it raises an error with that word. -/
theorem performCommand_ran_or_raised {v : Reg} {s t : State} (h : performCommand v s = .next t) :
    (∃ i u, encode i = v ∧ Ran i s u ∧ t = finishCommand u) ∨
      ∃ e, e ≠ .noError ∧ t = finishCommand (raiseError e v s) := by
  obtain ⟨i, u, hi, hu, rfl⟩ | ⟨-, rfl⟩ := performCommand_cases h
  · have hv := encode_of_decode hi
    obtain ⟨u', hu', hran⟩ | ⟨e, he, hu'⟩ := exec_cases i s
    · cases hu.symm.trans hu'
      exact .inl ⟨i, u, hv, hran, rfl⟩
    · cases hu.symm.trans hu'
      exact .inr ⟨e, he, by rw [hv]⟩
  · exact .inr ⟨_, by decide, rfl⟩

/-! ### A host line -/

/-- What a line other than reset may change: `t` is the state after its effect on `s`. The host's
program and the engine's parameters, ERRCMD, W and KVALID are beyond it. -/
structure LineTaken (op : HostOp) (s t : State) : Prop where
  cfg : t.cfg = s.cfg
  errcmd : t.errcmd = s.errcmd
  w : t.w = s.w
  kvalid : t.kvalid = s.kvalid
  hostProg : t.hostProg = s.hostProg
  hostPc : t.hostPc = s.hostPc ∨ ∃ line, (op = .bnz line ∨ op = .bz line) ∧ t.hostPc = line
  answered : isTransaction op = true → ∃ r, t.responses = r :: s.responses
  unanswered : isTransaction op = false → t.responses = s.responses
  err : t.err = s.err ∨
    t.err = .noError ∧ ∃ v : Reg, op = .write 0x004 32 v ∧ v.getLsbD 31 = true
  busy : (t.pend = s.pend ∧ t.window = s.window) ∨
    (op = .read 0x004 32 ∧ s.pend = none ∧ t.pend = none ∧ t.window = false) ∨
    ∃ v, op = .write 0x000 32 v ∧ s.err = .noError ∧ t.err = .noError ∧
      t.pend = some v ∧ t.window = true
  mem : t.mem = s.mem ∨ ∃ a bs, t.mem = Memory.writeBytes s.mem a bs ∧
    (s.cfg.legal = true → a + bs.length ≤ s.cfg.memBytes)

theorem busy_eq_false_iff (s : State) : s.busy = false ↔ s.pend = none := by simp [State.busy]

theorem busy_eq_true_iff (s : State) : s.busy = true ↔ ∃ v, s.pend = some v := by
  simp [State.busy, Option.isSome_iff_exists]

theorem hostRead_lineTaken (off : BitVec 17) (width : Nat) (s : State) :
    LineTaken (.read off width) s (hostRead off width s) := by
  obtain ⟨-, h⟩ | ⟨-, -, h⟩ | ⟨hwidth, -, h⟩ := hostRead_cases off width s <;> rw [h]
  · constructor <;> simp [isTransaction]
  · constructor <;> simp [isTransaction]
  · obtain ⟨hl, hb, h⟩ | ⟨-, h⟩ := closeWindow_cases (locate s.cfg off)
      (receive (.data32 (s.readLoc32 (locate s.cfg off))) (s.readLoc32 (locate s.cfg off)) s) <;>
      rw [h]
    · have hp : s.pend = none := (busy_eq_false_iff _).1 hb
      constructor <;> simp [isTransaction, locate_eq_status hl, hwidth, hp]
    · constructor <;> simp [isTransaction]

/-- A 4-aligned Word of MEM that starts inside MEM ends inside it: MEM_BYTES is a multiple of 16
(spec/00_scope.md R8). -/
theorem aligned_word_inside {c : Config} {a : Nat} (hc : c.legal = true) (ha : a % 4 = 0)
    (h : a < c.memBytes) : a + 4 ≤ c.memBytes := by
  have : c.memBytes % 16 = 0 := by
    simp only [Config.legal, Bool.and_eq_true, beq_iff_eq] at hc
    exact hc.1.1.1
  omega

theorem hostWrite_lineTaken (off : BitVec 17) (width : Nat) (v : Reg) (s : State) :
    LineTaken (.write off width v) s (hostWrite off width v s) := by
  obtain ⟨-, h⟩ | ⟨-, -, h⟩ | ⟨rfl, halign, h⟩ := hostWrite_cases off width v s <;> rw [h]
  · constructor <;> simp [isTransaction]
  · obtain ⟨a, hl, h⟩ | h := writeLoc8_cases (locate s.cfg off) v s <;> rw [h]
    · have ha := (locate_eq_mem hl).2
      constructor
      case mem => exact .inr ⟨a, _, rfl, fun _ => ha⟩
      all_goals simp [isTransaction]
    · constructor <;> simp [isTransaction]
  · obtain ⟨hl, h⟩ | ⟨hl, h⟩ | ⟨a, hl, h⟩ | ⟨_, _, _, _, _, _, h⟩ :=
      writeLoc32_cases (locate s.cfg off) v s <;> rw [h]
    · obtain ⟨he, h⟩ | ⟨-, h⟩ := issueCommand_cases v s <;> rw [h]
      · constructor <;> simp [isTransaction, locate_eq_cmd hl, he]
      · constructor <;> simp [isTransaction]
    · obtain ⟨hv, h⟩ | ⟨-, h⟩ := writeStatus_cases v s <;> rw [h]
      · constructor <;> simp [isTransaction, locate_eq_status hl, hv]
      · constructor <;> simp [isTransaction]
    · obtain ⟨hoff, ha⟩ := locate_eq_mem hl
      constructor
      case mem => exact .inr ⟨a, _, rfl, fun hc => aligned_word_inside hc (by omega) ha⟩
      all_goals simp [isTransaction]
    · constructor <;> simp [isTransaction]

theorem hostEffect_lineTaken {op : HostOp} (h : op ≠ .reset) (s : State) :
    LineTaken op s (hostEffect op s) := by
  cases op with
  | read off width => exact hostRead_lineTaken off width s
  | write off width v => exact hostWrite_lineTaken off width v s
  | mask m => constructor <;> simp [hostEffect, isTransaction]
  | bnz line =>
    rw [hostEffect]
    split <;> constructor <;> simp [isTransaction]
  | bz line =>
    rw [hostEffect]
    split <;> constructor <;> simp [isTransaction]
  | reset => exact absurd rfl h

/-! ### The whole step -/

/-- What a step does to the engine: the pending command runs or raises an error, the host takes a
line or the platform resets the engine, or nothing moves. -/
theorem step_effect {s t : State} (h : step s = .next t) :
    (∃ v i u, EngineMoves v s ∧ encode i = v ∧ Ran i s u ∧ t = finishCommand u) ∨
    (∃ v e, EngineMoves v s ∧ e ≠ .noError ∧ t = finishCommand (raiseError e v s)) ∨
    (∃ op u, HostMoves op s ∧ LineTaken op (hostMove s) u ∧ t = tick u) ∨
    (HostMoves .reset s ∧ t = tick (resetEngine (hostMove s))) ∨ t = s := by
  obtain ⟨v, hm, hp⟩ | ⟨op, hm, -, rfl⟩ | ⟨-, -, rfl⟩ := step_cases h
  · obtain ⟨i, u, hv, hran, rfl⟩ | ⟨e, he, rfl⟩ := performCommand_ran_or_raised hp
    · exact .inl ⟨v, i, u, hm, hv, hran, rfl⟩
    · exact .inr (.inl ⟨v, e, hm, he, rfl⟩)
  · by_cases hr : op = .reset
    · subst hr
      exact .inr (.inr (.inr (.inl ⟨hm, rfl⟩)))
    · exact .inr (.inr (.inl ⟨op, _, hm, hostEffect_lineTaken hr _, rfl⟩))
  · exact .inr (.inr (.inr (.inr rfl)))

/-- Under the invariant no error is held on the engine's turn (spec/30_encoding.md R91). -/
theorem State.Inv.noError_of_engineMoves {s : State} {v : Reg} (hs : s.Inv)
    (h : EngineMoves v s) : s.err = .noError :=
  hs.busyNoError ((busy_eq_true_iff s).2 ⟨v, h.1⟩)

end Sys2Proof.Machine
end

section
/-! PROOFS. The invariant is kept: by the command that runs, by the one that fails, by a host line
and by reset. -/

namespace Sys2Proof.Machine

/-- A write inside MEM keeps the two clauses of the invariant that speak of MEM. -/
theorem State.Inv.writeBytes_mem {s : State} (hs : s.Inv) {a : Nat} {bs : List Byte}
    (h : a + bs.length ≤ s.cfg.memBytes) :
    Memory.wf (Memory.writeBytes s.mem a bs) ∧
      ∀ c ∈ Memory.writeBytes s.mem a bs, c.1 < s.cfg.memBytes :=
  ⟨writeBytes_wf a bs hs.memWf, writeBytes_inside h hs.memInside⟩

/-- A command that runs keeps the invariant: what it stores is in range, and a KEXP leaves an
expanded key. -/
theorem Ran.inv {i : Instr} {s u : State} (hran : Ran i s u) (hs : s.Inv) :
    (finishCommand u).Inv := by
  have hmem : Memory.wf u.mem ∧ ∀ c ∈ u.mem, c.1 < s.cfg.memBytes := by
    obtain h | ⟨-, bs, hr, h⟩ := hran.mem <;> rw [h]
    · exact ⟨hs.memWf, hs.memInside⟩
    · exact hs.writeBytes_mem hr
  have hkey : u.kvalid = true → ∃ k : List Byte, k.length = 16 ∧ u.w = expand k := by
    obtain ⟨-, hw, hk⟩ | ⟨-, -, -, hw, -⟩ := hran.schedule <;> rw [hw]
    · exact hk ▸ hs.keyHolds
    · exact fun _ => ⟨_, length_readBytes _ _ _, rfl⟩
  constructor
  · simpa [hran.cfg] using hs.cfgLegal
  · exact hmem.1
  · simpa [hran.cfg] using hmem.2
  · simp [State.busy]
  · simp [State.busy]
  · exact hkey

/-- A command that fails keeps the invariant: no command is pending after it, and KVALID only
drops. -/
theorem State.Inv.finish_raiseError {s : State} (hs : s.Inv) (e : ErrCode) (v : Reg) :
    (finishCommand (raiseError e v s)).Inv where
  cfgLegal := hs.cfgLegal
  memWf := hs.memWf
  memInside := hs.memInside
  busyWindow := by simp [State.busy]
  busyNoError := by simp [State.busy]
  keyHolds hk := hs.keyHolds (Bool.and_eq_true_iff.1 hk).1

/-- A host line keeps the invariant: a MEM access lies inside MEM, and a CMD write is accepted only
with ERR = 0 and opens the window. -/
theorem LineTaken.inv {op : HostOp} {s t : State} (ht : LineTaken op s t) (hs : s.Inv) : t.Inv := by
  have hmem : Memory.wf t.mem ∧ ∀ c ∈ t.mem, c.1 < s.cfg.memBytes := by
    obtain h | ⟨a, bs, h, hr⟩ := ht.mem <;> rw [h]
    · exact ⟨hs.memWf, hs.memInside⟩
    · exact hs.writeBytes_mem (hr hs.cfgLegal)
  have hbusy : t.busy = true → t.window = true ∧ t.err = .noError := by
    intro hb
    obtain ⟨hp, hw⟩ | ⟨-, -, hp, -⟩ | ⟨v, -, -, he, -, hw⟩ := ht.busy
    · have hb' : s.busy = true := by rwa [State.busy, ← hp]
      refine ⟨hw.trans (hs.busyWindow hb'), ?_⟩
      obtain he | ⟨he, -⟩ := ht.err
      · exact he.trans (hs.busyNoError hb')
      · exact he
    · simp [State.busy, hp] at hb
    · exact ⟨hw, he⟩
  constructor
  · exact ht.cfg ▸ hs.cfgLegal
  · exact hmem.1
  · exact ht.cfg ▸ hmem.2
  · exact fun hb => (hbusy hb).1
  · exact fun hb => (hbusy hb).2
  · rw [ht.kvalid, ht.w]
    exact hs.keyHolds

/-- The fields a host's move and the counter change are none of the invariant's. -/
theorem State.Inv.hostMove {s : State} (hs : s.Inv) : (hostMove s).Inv :=
  ⟨hs.cfgLegal, hs.memWf, hs.memInside, hs.busyWindow, hs.busyNoError, hs.keyHolds⟩

theorem State.Inv.tick {s : State} (hs : s.Inv) : (tick s).Inv :=
  ⟨hs.cfgLegal, hs.memWf, hs.memInside, hs.busyWindow, hs.busyNoError, hs.keyHolds⟩

/-- Settles O10: each of the things a step can do keeps the invariant. -/
theorem invKeptByStep : Obligations.InvKeptByStep := by
  intro s t hs h
  obtain ⟨v, i, u, -, -, hran, rfl⟩ | ⟨v, e, -, -, rfl⟩ | ⟨op, u, -, hu, rfl⟩ | ⟨-, rfl⟩ | rfl :=
    step_effect h
  · exact hran.inv hs
  · exact hs.finish_raiseError e v
  · exact (hu.inv hs.hostMove).tick
  · exact inv_of_cleared hs.cfgLegal rfl rfl rfl
  · exact hs

end Sys2Proof.Machine
end

section
/-! PROOFS. Which step and which command may write which state (spec/10_state.md R25 to R32). -/

namespace Sys2Proof.Machine

/-- Settles O24: a command is performed only with ERR = 0, and a host line changes ERR by ERRCLR
alone. -/
theorem errIsSticky : Obligations.ErrIsSticky := by
  intro s t hs h
  obtain ⟨v, i, u, hm, -, hran, rfl⟩ | ⟨v, e, hm, -, rfl⟩ | ⟨op, u, hm, hu, rfl⟩ | ⟨hm, rfl⟩ | rfl :=
    step_effect h
  · have h0 := hs.noError_of_engineMoves hm
    simp [h0, hran.err]
  · have h0 := hs.noError_of_engineMoves hm
    exact ⟨fun h => absurd h0 h, fun h => absurd h0 h, fun _ _ => ⟨v, hm⟩⟩
  · obtain he | ⟨he, v, rfl, hv⟩ := hu.err
    · have he : u.err = s.err := he
      exact ⟨fun _ _ => he, fun h h' => absurd (he ▸ h') h, fun h h' => absurd (he ▸ h) h'⟩
    · exact ⟨fun _ h => absurd he h, fun _ _ => .inr ⟨v, hm, hv⟩, fun _ h => absurd he h⟩
  · exact ⟨fun _ h => absurd rfl h, fun _ _ => .inl hm, fun _ h => absurd rfl h⟩
  · exact ⟨fun _ _ => rfl, fun h h' => absurd h' h, fun h h' => absurd h h'⟩

/-- Settles O25: a command that runs and a host line leave ERRCMD, and one that fails puts its
word there. -/
theorem errcmdOnlyOnFailure : Obligations.ErrcmdOnlyOnFailure := by
  intro s t hs h
  refine ⟨fun hne => ?_, fun v hm hte => ?_⟩
  · obtain ⟨v, i, u, -, -, hran, rfl⟩ | ⟨v, e, hm, he, rfl⟩ | ⟨op, u, -, hu, rfl⟩ | ⟨hm, rfl⟩ | rfl :=
      step_effect h
    · exact absurd hran.errcmd hne
    · exact .inl ⟨v, hm, he⟩
    · exact absurd hu.errcmd hne
    · exact .inr hm
    · exact absurd rfl hne
  · rw [step_engine hm] at h
    obtain ⟨i, u, -, hran, rfl⟩ | ⟨e, -, rfl⟩ := performCommand_ran_or_raised h
    · exact absurd (hran.err.trans (hs.noError_of_engineMoves hm)) hte
    · rfl

/-- Settles O26: by what a command that runs may change and what an error entry changes. -/
theorem whoWritesWhat : Obligations.WhoWritesWhat := by
  intro i s t h
  obtain ⟨u, hu, hran⟩ | ⟨e, -, hu⟩ := exec_cases i s <;> cases h.symm.trans hu
  · refine ⟨hran.src, hran.len, hran.dst, hran.wb, hran.cfg, fun h => ?_, fun h => ?_,
      fun h => ⟨hran.outlen h, hran.err⟩, hran.wa, fun h => ?_, hran.st⟩
    · obtain ⟨-, hw, -⟩ | ⟨hi, -, -, -, hk⟩ := hran.schedule
      · exact absurd hw h
      · exact ⟨hi, hk⟩
    · obtain ⟨-, -, hk⟩ | ⟨hi, -⟩ := hran.schedule
      · exact absurd hk h
      · exact hi
    · obtain hm | ⟨hi, -⟩ := hran.mem
      · exact absurd hm h
      · exact hi
  · have hkey : (raiseError e (encode i) s).kvalid ≠ s.kvalid → i = .kexp := by
      intro h
      by_contra hi
      exact h (by simp [dropsKey_of_ne e (encode_ne_kexp hi)])
    exact ⟨rfl, rfl, rfl, rfl, rfl, fun h => absurd rfl h, hkey, fun h => absurd rfl h,
      fun h => absurd rfl h, fun h => absurd rfl h, fun h => absurd rfl h⟩

/-- Settles O27: no host line writes W, and a command that changes it is a KEXP that ran. -/
theorem scheduleOnlyByKexp : Obligations.ScheduleOnlyByKexp := by
  intro s t h hne
  obtain ⟨v, i, u, hm, rfl, hran, rfl⟩ | ⟨v, e, -, -, rfl⟩ | ⟨op, u, -, hu, rfl⟩ | ⟨hm, -⟩ | rfl :=
    step_effect h
  · obtain ⟨-, hw, -⟩ | ⟨rfl, hlen, hsrc, hw, hk⟩ := hran.schedule
    · exact absurd hw hne
    · exact .inl ⟨hm, hlen, hsrc, hw, hk⟩
  · exact absurd rfl hne
  · exact absurd hu.w hne
  · exact .inr hm
  · exact absurd rfl hne

end Sys2Proof.Machine
end

section
/-! PROOFS. The host's lines: what each register's read returns and each register's write changes
(spec/10_state.md R22 to R46). -/

namespace Sys2Proof.Machine

/-- Settles O5: outside the window the line is taken, and its effect is that of a transaction, of a
mask or branch, or of reset. -/
theorem stepTakesHostLine : Obligations.StepTakesHostLine := by
  intro s op hm hw
  refine ⟨_, step_host_open hm hw, ?_⟩
  by_cases hr : op = .reset
  · subst hr
    simp [hostEffect, isTransaction]
  · have ht := hostEffect_lineTaken hr (hostMove s)
    exact ⟨ht.cfg, ht.hostProg, ht.hostPc, ht.answered, ht.unanswered⟩

/-! ### The register map -/

/-- No two offsets of the register table select one location. -/
theorem registerTable_injective : ∀ p ∈ registerTable, ∀ q ∈ registerTable,
    p.2 = q.2 → p.1 = q.1 := by decide

theorem registerLoc_of_mem_registerTable : ∀ p ∈ registerTable, registerLoc p.1 = p.2 := by decide

/-- The offsets from RK0 on, and those between the registers and RK0, are not in the table. -/
theorem registerLoc_eq_rkLoc {n : Nat} (h : (0x024 ≤ n ∧ n < 0x030) ∨ 0x040 ≤ n) :
    registerLoc n = rkLoc n := by
  obtain ⟨l, hl, -⟩ | ⟨-, h'⟩ := registerLoc_cases n
  · have hout : ∀ p ∈ registerTable, ¬ ((0x024 ≤ p.1 ∧ p.1 < 0x030) ∨ 0x040 ≤ p.1) := by decide
    exact absurd h (hout _ hl)
  · exact h'

theorem registerLoc_rk (i : Fin 44) : registerLoc (0x100 + 4 * i.val) = .rk i := by
  rw [registerLoc_eq_rkLoc (.inr (by omega)), rkLoc, dif_pos (by omega)]
  congr 1
  apply Fin.ext
  simp only
  omega

theorem registerLoc_reserved {n : Nat} (h : (0x024 ≤ n ∧ n < 0x030) ∨ (0x040 ≤ n ∧ n < 0x100) ∨
    0x1B0 ≤ n) : registerLoc n = .reserved := by
  rw [registerLoc_eq_rkLoc (by omega), rkLoc, dif_neg (by omega)]

/-- The location a table entry names is selected by that entry's offset alone. -/
theorem registerLoc_eq_iff {k : Nat} {l : Loc} (hk : (k, l) ∈ registerTable) {n : Nat} :
    registerLoc n = l ↔ n = k := by
  refine ⟨fun h => ?_, ?_⟩
  · obtain ⟨l', hl', h'⟩ | ⟨-, h'⟩ := registerLoc_cases n
    · exact registerTable_injective _ hl' _ hk (h'.symm.trans h)
    · have hout : ∀ p ∈ registerTable, p.2 ≠ .reserved ∧ ∀ i, p.2 ≠ .rk i := by decide
      obtain ⟨hres, hrk⟩ := hout _ hk
      obtain ⟨i, hi, -⟩ | ⟨hi, -⟩ := rkLoc_cases n
      · exact absurd (h.symm.trans (h'.trans hi)) (hrk i)
      · exact absurd (h.symm.trans (h'.trans hi)) hres
  · rintro rfl
    exact registerLoc_of_mem_registerTable _ hk

/-- `registerLoc_eq_iff` for an offset of the window. -/
theorem registerLoc_toNat_eq_iff {k : BitVec 17} {l : Loc} (hk : (k.toNat, l) ∈ registerTable)
    {off : BitVec 17} : registerLoc off.toNat = l ↔ off = k :=
  (registerLoc_eq_iff hk).trans BitVec.toNat_inj

theorem stateCol_mem_registerTable (c : Fin 4) :
    (0x030 + 4 * c.val, Loc.stateCol c) ∈ registerTable := by revert c; decide

/-! ### Reads -/

/-- No field that a read returns changes as the host moves to its next line. -/
theorem readLoc32_hostMove (l : Loc) (s : State) : (hostMove s).readLoc32 l = s.readLoc32 l := by
  cases l <;> rfl

/-- With the window closed a read has no effect on it. -/
theorem closeWindow_of_closed (l : Loc) {s : State} (h : s.window = false) : closeWindow l s = s := by
  obtain ⟨-, -, hc⟩ | ⟨-, hc⟩ := closeWindow_cases l s
  · rw [hc, ← h]
  · exact hc

/-- A 4-aligned 32-bit read outside the window answers the location's value and changes nothing in
the engine. -/
theorem step_read32 {s : State} {off : BitVec 17} (hm : HostMoves (.read off 32) s)
    (hw : s.window = false) (ha : off.toNat % 4 = 0) :
    step s = .next { afterHost (.data32 (s.readLoc32 (locate s.cfg off))) s with
      hostLast := s.readLoc32 (locate s.cfg off) } := by
  have hb : busError off 32 = false := by simp [busError, ha]
  rw [step_host_open hm hw, hostEffect, hostRead, if_neg (by simp [hb]), if_neg (by decide),
    closeWindow_of_closed _ (show (receive _ _ (hostMove s)).window = false from hw), readLoc32_hostMove]
  rfl

/-- Settles O14: the location an offset selects, and what a read of it returns. -/
theorem registerReadMap : Obligations.RegisterReadMap := by
  intro s off hop hp hw hoff ha
  have hstep := step_read32 ⟨hop, .inl hp⟩ hw ha
  rw [locate_register _ hoff] at hstep
  refine ⟨_, hstep, ?_, ?_, ?_, ?_, ?_, ?_, ?_, ?_, fun c hc => ?_, fun i hi => ?_, fun hr => ?_⟩
  case refine_9 =>
    rw [(registerLoc_eq_iff (stateCol_mem_registerTable c)).2 hc]
    exact toNat_word32 _
  case refine_10 =>
    rw [hi, registerLoc_rk]
    exact toNat_word32 _
  case refine_11 =>
    rw [registerLoc_reserved hr]
    rfl
  all_goals
    rintro rfl
    rfl

/-- STATUS as a number: its fields do not overlap (spec/10_state.md R24). -/
theorem toNat_status (s : State) : s.status.toNat =
    16 * s.err.code.toNat + (if s.kvalid = true then 2 else 0) + (if s.pend = none then 0 else 1) := by
  have fields : ∀ (c : BitVec 4) (k b : Bool),
      ((c.setWidth 32 <<< 4) ||| ((BitVec.ofBool k).setWidth 32 <<< 1) |||
        (BitVec.ofBool b).setWidth 32 : Reg).toNat =
      16 * c.toNat + (if k = true then 2 else 0) + (if b = true then 1 else 0) := by decide +kernel
  rw [State.status, fields]
  cases hp : s.pend <;> simp [State.busy, hp]

/-- A STATUS read is permitted at any time (spec/70_reset_and_hazards.md R260). -/
theorem step_statusRead {s : State} (hm : HostMoves (.read 0x004 32) s) :
    step s = .next { afterHost (.data32 s.status) s with
      hostLast := s.status, window := s.window && s.pend.isSome } := by
  have hz : hazard (.read 0x004 32) s = false := by simp [hazard, isStatusRead]
  have hl : locate s.cfg 0x004 = .status := rfl
  have hread : hostEffect (.read 0x004 32) (hostMove s) =
      closeWindow .status (receive (.data32 s.status) s.status (hostMove s)) := rfl
  rw [step_host hm, hostStep, hz, hread]
  cases hp : s.pend <;> simp [closeWindow, State.busy, hp, tick, receive, hostMove, afterHost]

/-- Settles O12: the STATUS read's effect, and its value as a number. -/
theorem statusReadValue : Obligations.StatusReadValue :=
  ⟨fun s hm => ⟨s.status, toNat_status s, step_statusRead hm⟩,
    fun e => by cases e <;> decide, rfl⟩

/-! ### Writes -/

/-- But for a CMD write, a write's effect on the engine does not depend on the host's move. -/
theorem tick_respond_writeLoc32 {l : Loc} (h : l ≠ .cmd) (v : Reg) (s : State) :
    tick (respond .written (writeLoc32 l v (hostMove s))) = afterHost .written (writeLoc32 l v s) := by
  cases l with
  | cmd => exact absurd rfl h
  | status =>
    simp only [writeLoc32, writeStatus]
    split <;> rfl
  | _ => rfl

/-- A 4-aligned 32-bit write outside the window, but for CMD, answers what the location's write
leaves. -/
theorem step_write32 {s : State} {off : BitVec 17} {v : Reg} (hm : HostMoves (.write off 32 v) s)
    (hw : s.window = false) (ha : off.toNat % 4 = 0) (hl : locate s.cfg off ≠ .cmd) :
    step s = .next (afterHost .written (writeLoc32 (locate s.cfg off) v s)) := by
  have hb : busError off 32 = false := by simp [busError, ha]
  rw [step_host_open hm hw, hostEffect, hostWrite, if_neg (by simp [hb]), if_neg (by decide),
    hostMove_cfg, tick_respond_writeLoc32 hl]

/-- Settles O13: a STATUS write is ERRCLR or nothing. -/
theorem statusWriteClearsErr : Obligations.StatusWriteClearsErr := by
  intro s v hop hp hw
  have hl : locate s.cfg 0x004 = .status := rfl
  have hstep := step_write32 ⟨hop, .inl hp⟩ hw rfl (by rw [hl]; decide)
  rw [hl, writeLoc32] at hstep
  obtain ⟨hv, h⟩ | ⟨hv, h⟩ := writeStatus_cases v s <;> rw [h] at hstep
  · exact ⟨fun _ => hstep, fun hv' => absurd (hv.symm.trans hv') (by decide)⟩
  · exact ⟨fun hv' => absurd (hv.symm.trans hv') (by decide), fun _ => hstep⟩

theorem wordByte_toWord (v : Reg) (r : Fin 4) :
    wordByte (toWord v) r = v.extractLsb' (24 - 8 * r.val) 8 := by
  fin_cases r <;> rfl

/-- A write of STATEc replaces column c and no other. -/
theorem blockCol_setBlockCol (b : Block) (c d : Fin 4) (w : Word) :
    blockCol (setBlockCol b c w) d = if c = d then w else blockCol b d := by
  fin_cases c <;> fin_cases d <;> rfl

/-- What a write of a register other than CMD and STATUS leaves in the operand registers. -/
theorem writeLoc32_register {l : Loc} (hc : l ≠ .cmd) (hs : l ≠ .status) (hm : ∀ a, l ≠ .mem a)
    (v : Reg) (s : State) : writeLoc32 l v s =
      { s with
        src := if l = .src then v else s.src
        len := if l = .len then v else s.len
        dst := if l = .dst then v else s.dst
        wa := if l = .wa then v else s.wa
        wb := if l = .wb then v else s.wb
        st := (writeLoc32 l v s).st } := by
  cases l with
  | cmd => exact absurd rfl hc
  | status => exact absurd rfl hs
  | mem a => exact absurd rfl (hm a)
  | _ => simp [writeLoc32]

theorem blockEntry_writeLoc32 {l : Loc} (hc : l ≠ .cmd) (hs : l ≠ .status) (v : Reg) (s : State)
    (r c : Fin 4) : blockEntry (writeLoc32 l v s).st r c =
      if l = .stateCol c then v.extractLsb' (24 - 8 * r.val) 8 else blockEntry s.st r c := by
  cases l with
  | cmd => exact absurd rfl hc
  | status => exact absurd rfl hs
  | stateCol d =>
    simp only [writeLoc32, blockEntry, blockCol_setBlockCol, Loc.stateCol.injEq]
    split
    · exact wordByte_toWord v r
    · rfl
  | _ => simp [writeLoc32]

/-- `writeLoc32_register` by offset: each operand register is written at its own offset alone. -/
theorem writeLoc32_registerLoc {off : BitVec 17} (hc : registerLoc off.toNat ≠ .cmd)
    (hs : registerLoc off.toNat ≠ .status) (v : Reg) (s : State) :
    writeLoc32 (registerLoc off.toNat) v s =
      { s with
        src := if off = 0x008 then v else s.src
        len := if off = 0x00C then v else s.len
        dst := if off = 0x010 then v else s.dst
        wa := if off = 0x01C then v else s.wa
        wb := if off = 0x020 then v else s.wb
        st := (writeLoc32 (registerLoc off.toNat) v s).st } := by
  have h := writeLoc32_register hc hs (registerLoc_ne_mem _) v s
  simpa only [registerLoc_toNat_eq_iff (k := 0x008) (l := .src) (by decide),
    registerLoc_toNat_eq_iff (k := 0x00C) (l := .len) (by decide),
    registerLoc_toNat_eq_iff (k := 0x010) (l := .dst) (by decide),
    registerLoc_toNat_eq_iff (k := 0x01C) (l := .wa) (by decide),
    registerLoc_toNat_eq_iff (k := 0x020) (l := .wb) (by decide)] using h

/-- Settles O15: the location an offset selects, and what a write of it changes. -/
theorem registerWriteMap : Obligations.RegisterWriteMap := by
  intro s off v hop hp hw hoff ha hcmd hstatus
  have hl := locate_register s.cfg hoff
  have hc : registerLoc off.toNat ≠ .cmd := mt (registerLoc_toNat_eq_iff (by decide)).1 hcmd
  have hs : registerLoc off.toNat ≠ .status := mt (registerLoc_toNat_eq_iff (by decide)).1 hstatus
  have hstep := step_write32 ⟨hop, .inl hp⟩ hw ha (hl ▸ hc)
  rw [hl, writeLoc32_registerLoc hc hs] at hstep
  refine ⟨_, hstep, rfl, rfl, rfl, rfl, rfl, rfl, fun r c => ?_⟩
  have hst := blockEntry_writeLoc32 hc hs v s r c
  simpa only [registerLoc_eq_iff (stateCol_mem_registerTable c)] using hst

end Sys2Proof.Machine
end

section
/-! PROOFS. Host access to MEM: 8-bit and 32-bit reads and writes of the MEM window, and the bus
errors among them (spec/20_memory.md R60 to R62, spec/60_exceptions.md R230). -/

namespace Sys2Proof.Machine

/-! ### Bus errors -/

/-- A read that is a bus error changes nothing in the engine. -/
theorem step_read_busError {s : State} {off : BitVec 17} {width : Nat}
    (hm : HostMoves (.read off width) s) (hw : s.window = false) (hb : busError off width = true) :
    step s = .next (afterHost .busError s) := by
  rw [step_host_open hm hw, hostEffect, hostRead, if_pos hb]
  rfl

/-- A write that is a bus error changes nothing in the engine. -/
theorem step_write_busError {s : State} {off : BitVec 17} {width : Nat} {v : Reg}
    (hm : HostMoves (.write off width v) s) (hw : s.window = false)
    (hb : busError off width = true) : step s = .next (afterHost .busError s) := by
  rw [step_host_open hm hw, hostEffect, hostWrite, if_pos hb]
  rfl

theorem busError_misaligned {off : BitVec 17} (h : off.toNat % 4 ≠ 0) : busError off 32 = true := by
  simp [busError, h]

theorem busError_byte {off : BitVec 17} (h : 0x10000 ≤ off.toNat) : busError off 8 = false := by
  simp [busError, h]

/-! ### 8-bit transactions -/

/-- No byte that a read returns changes as the host moves to its next line. -/
theorem readLoc8_hostMove (l : Loc) (s : State) : (hostMove s).readLoc8 l = s.readLoc8 l := by
  cases l <;> rfl

/-- An 8-bit write's effect on the engine does not depend on the host's move. -/
theorem tick_respond_writeLoc8 (l : Loc) (v : Reg) (s : State) :
    tick (respond .written (writeLoc8 l v (hostMove s))) = afterHost .written (writeLoc8 l v s) := by
  cases l <;> rfl

/-- An 8-bit read in the MEM window answers the location's byte and changes nothing in the engine. -/
theorem step_read8 {s : State} {off : BitVec 17} (hm : HostMoves (.read off 8) s)
    (hw : s.window = false) (hoff : 0x10000 ≤ off.toNat) :
    step s = .next { afterHost (.data8 (s.readLoc8 (locate s.cfg off))) s with
      hostLast := (s.readLoc8 (locate s.cfg off)).setWidth 32 } := by
  rw [step_host_open hm hw, hostEffect, hostRead, busError_byte hoff, if_neg (by decide), if_pos rfl,
    readLoc8_hostMove]
  rfl

/-- An 8-bit write in the MEM window answers what the location's write leaves. -/
theorem step_write8 {s : State} {off : BitVec 17} {v : Reg} (hm : HostMoves (.write off 8 v) s)
    (hw : s.window = false) (hoff : 0x10000 ≤ off.toNat) :
    step s = .next (afterHost .written (writeLoc8 (locate s.cfg off) v s)) := by
  rw [step_host_open hm hw, hostEffect, hostWrite, busError_byte hoff, if_neg (by decide), if_pos rfl,
    hostMove_cfg, tick_respond_writeLoc8]

/-! ### Byte order -/

theorem getElem?_wordBytes (w : Word) (k : Fin 4) :
    (wordBytes w)[k.val]? = some (wordByte w k) := by
  fin_cases k <;> rfl

/-- A 32-bit value written at `a` is stored with its most significant byte at `a`
(spec/20_memory.md R62). -/
theorem read_writeBytes_word (m : Memory) (a : Nat) (v : Reg) {k : Nat} (hk : k < 4) :
    (Memory.writeBytes m a (wordBytes (toWord v))).read (a + k) =
      some (v.extractLsb' (24 - 8 * k) 8) := by
  rw [read_writeBytes_inside m hk, getElem?_wordBytes (toWord v) ⟨k, hk⟩, wordByte_toWord]

/-- Settles O17: the location an offset of the MEM window selects, what a transaction of either width
does there, and which bytes a write leaves. -/
theorem hostMemAccess : Obligations.HostMemAccess := by
  intro s off a v hp hw hoff
  have moves : ∀ {op}, s.hostOp = some op → HostMoves op s := fun hop => ⟨hop, .inl hp⟩
  have hmem : 0x10000 ≤ off.toNat := by omega
  have haligned : a % 4 = 0 → off.toNat % 4 = 0 := by omega
  refine ⟨fun ha => ?_, fun ha h4 => ?_, fun h4 => ?_, fun ha h4 => ?_, fun ha => ?_⟩
  · have hl := locate_mem s.cfg hoff ha
    refine ⟨fun hop => ?_, fun hop => ⟨s.mem.write a (v.extractLsb' 0 8), ?_,
      read_write_same _ _ _, fun b hb => read_write_other _ _ hb⟩⟩
    · simpa only [hl, State.readLoc8] using step_read8 (moves hop) hw hmem
    · simpa only [hl, writeLoc8, State.writeBytes, Memory.writeBytes]
        using step_write8 (moves hop) hw hmem
  · have hl := locate_mem s.cfg hoff ha
    refine ⟨fun hop => ⟨s.readMem32 a, toNat_word32 _, ?_⟩,
      fun hop => ⟨s.mem.writeBytes a (wordBytes (toWord v)), ?_,
        fun k hk => read_writeBytes_word _ _ _ hk, fun b hb => read_writeBytes_outside _ hb⟩⟩
    · simpa only [hl, State.readLoc32] using step_read32 (moves hop) hw (haligned h4)
    · simpa only [hl, writeLoc32, State.writeBytes]
        using step_write32 (moves hop) hw (haligned h4) (by simp [hl])
  · have hb : busError off 32 = true := busError_misaligned (by omega)
    exact ⟨fun hop => step_read_busError (moves hop) hw hb,
      fun hop => step_write_busError (moves hop) hw hb⟩
  · have hl := locate_beyond s.cfg hoff ha
    refine ⟨fun hop => ?_, fun hop => ?_⟩
    · simpa only [hl, State.readLoc32] using step_read32 (moves hop) hw (haligned h4)
    · simpa only [hl, writeLoc32] using step_write32 (moves hop) hw (haligned h4) (by simp [hl])
  · have hl := locate_beyond s.cfg hoff ha
    refine ⟨fun hop => ?_, fun hop => ?_⟩
    · simpa only [hl, State.readLoc8, BitVec.ofNat_eq_ofNat, BitVec.setWidth_zero]
        using step_read8 (moves hop) hw hmem
    · simpa only [hl, writeLoc8] using step_write8 (moves hop) hw hmem

end Sys2Proof.Machine
end

section
/-! PROOFS. The decoder and the encoder agree, and the words the decoder rejects are those of R94's
clauses (spec/30_encoding.md R90 to R98). -/

namespace Sys2Proof.Machine

/-! ### Decode and encode -/

/-- The decoder reads only well-formed commands (spec/30_encoding.md R98). -/
theorem wf_of_decode {v : Reg} {i : Instr} (h : decode v = .ok i) : i.wf = true := by
  unfold decode at h
  split at h
  · exact (decodeOpcode_sound h).1
  · cases h

/-- A well-formed command is read back from its word. -/
theorem decode_encode {i : Instr} (h : i.wf = true) : decode (encode i) = .ok i := by
  obtain ⟨hrsv, hopc, himm⟩ : Laws.EncodeFields.Statement i := Laws.fields_of_parts _ _
  rw [decode, if_pos hrsv, hopc, himm, decodeOpcode_complete h]

/-- Settles O1: a decoded command is well-formed and its word is the one decoded, and the word of a
well-formed command decodes to it. -/
theorem decodeEncodeAgree : Obligations.DecodeEncodeAgree := by
  intro v i
  constructor
  · exact fun h => ⟨wf_of_decode h, encode_of_decode h⟩
  · rintro ⟨hwf, rfl⟩
    exact decode_encode hwf

/-! ### Illegal words -/

/-- Clauses (c), (d) and (e) of R94: IMM is no operand of the command that the opcode `n` names. -/
def OperandIllegal (n imm : Nat) : Prop :=
  (n = 0x16 ∧ 10 < imm) ∨ (n = 0x23 ∧ (imm = 0 ∨ 10 < imm)) ∨ (n ≠ 0x16 ∧ n ≠ 0x23 ∧ imm ≠ 0)

/-- An opcode outside the map of R95 is illegal by clause (b). -/
theorem decodeOpcode_of_not_mem {n : Nat} (h : n ∉ opcodeMap.map Prod.fst) (imm : BitVec 4) :
    decodeOpcode n imm = .error .unassignedOpcode := by
  unfold decodeOpcode
  split
  case h_20 => rfl
  all_goals exact absurd (by decide) h

/-- Which operand check a row of the opcode map takes. -/
theorem decodeOpcode_of_mem (imm : BitVec 4) : ∀ p ∈ opcodeMap,
    (p.1 = 0x16 ∧ p.2 imm = .addrk imm ∧ decodeOpcode p.1 imm = withRoundIndex imm) ∨
    (p.1 = 0x23 ∧ p.2 imm = .rconxor imm ∧ decodeOpcode p.1 imm = withConstantIndex imm) ∨
    (p.1 ≠ 0x16 ∧ p.1 ≠ 0x23 ∧ decodeOpcode p.1 imm = withoutOperand imm (p.2 imm)) := by
  simp [opcodeMap, decodeOpcode]

/-- A row of the opcode map either rejects its operand or answers its command. -/
theorem decodeOpcode_row {p : Nat × (BitVec 4 → Instr)} (hp : p ∈ opcodeMap) (imm : BitVec 4) :
    (OperandIllegal p.1 imm.toNat ∧ ∃ e, decodeOpcode p.1 imm = .error e) ∨
      (¬ OperandIllegal p.1 imm.toNat ∧ decodeOpcode p.1 imm = .ok (p.2 imm)) := by
  obtain ⟨hn, hi, h⟩ | ⟨hn, hi, h⟩ | ⟨hn, hn', h⟩ := decodeOpcode_of_mem imm p hp <;> rw [h]
  · rw [hn, hi, withRoundIndex]
    split
    · exact .inr ⟨by unfold OperandIllegal; omega, rfl⟩
    · exact .inl ⟨by unfold OperandIllegal; omega, _, rfl⟩
  · rw [hn, hi, withConstantIndex]
    split
    · exact .inr ⟨by unfold OperandIllegal; omega, rfl⟩
    · exact .inl ⟨by unfold OperandIllegal; omega, _, rfl⟩
  · have himm : imm.toNat = 0 ↔ imm = 0 := BitVec.toNat_inj (y := 0)
    rw [withoutOperand]
    split
    · next h0 => exact .inr ⟨by simp [OperandIllegal, hn, hn', himm.2 h0], rfl⟩
    · next h0 => exact .inl ⟨by simp [OperandIllegal, hn, hn', himm.not.2 h0], _, rfl⟩

/-- What the decoder answers (spec/30_encoding.md R94): illegal by clause (a), (b) or one of (c) to
(e), or the command of the opcode's row. -/
theorem decode_cases (v : Reg) :
    ((v.toNat / 4096 ≠ 0 ∨ v.toNat % 256 ∉ opcodeMap.map Prod.fst ∨
        OperandIllegal (v.toNat % 256) (v.toNat / 256 % 16)) ∧ ∃ e, decode v = .error e) ∨
      (v.toNat / 4096 = 0 ∧ ¬ OperandIllegal (v.toNat % 256) (v.toNat / 256 % 16) ∧
        ∃ p ∈ opcodeMap, p.1 = v.toNat % 256 ∧ decode v = .ok (p.2 (immField v))) := by
  unfold decode
  rw [toNat_opcField]
  split
  case isFalse hr => exact .inl ⟨.inl ((rsvField_eq_zero_iff v).not.1 hr), _, rfl⟩
  case isTrue hr =>
    rw [rsvField_eq_zero_iff] at hr
    by_cases hn : v.toNat % 256 ∈ opcodeMap.map Prod.fst
    · obtain ⟨p, hp, hpn⟩ := List.mem_map.1 hn
      have hrow := decodeOpcode_row hp (immField v)
      rw [hpn, toNat_immField] at hrow
      obtain ⟨hi, he⟩ | ⟨hi, hok⟩ := hrow
      · exact .inl ⟨.inr (.inr hi), he⟩
      · exact .inr ⟨hr, hi, p, hp, hpn, hok⟩
    · exact .inl ⟨.inr (.inl hn), _, decodeOpcode_of_not_mem hn _⟩

/-- Settles O2: the decoder's two answers exclude each other, and so do the clauses and the row. -/
theorem decodeIllegalExactly : Obligations.DecodeIllegalExactly := by
  refine ⟨fun v => ?_, fun v i h => ?_⟩
  · obtain ⟨hill, he⟩ | ⟨hr, hi, p, hp, hpn, hok⟩ := decode_cases v
    · exact iff_of_true he hill
    · refine iff_of_false (fun ⟨e, he⟩ => by rw [hok] at he; cases he) ?_
      rintro (hr' | hn | hi')
      · exact hr' hr
      · exact hn (hpn ▸ List.mem_map_of_mem hp)
      · exact hi hi'
  · obtain ⟨-, e, he⟩ | ⟨-, -, p, hp, hpn, hok⟩ := decode_cases v
    · rw [he] at h
      cases h
    · rw [hok] at h
      cases h
      refine ⟨p, hp, hpn, ?_⟩
      rw [← toNat_immField, BitVec.ofNat_toNat, BitVec.setWidth_eq]

/-- Settles O3: each word is a literal, and the decoder computes its answer. -/
theorem knownWordsDecode : Obligations.KnownWordsDecode :=
  ⟨rfl, rfl, rfl, rfl, rfl, rfl, rfl, rfl, rfl, rfl, rfl, rfl, rfl, rfl⟩

end Sys2Proof.Machine
end

section
/-! PROOFS. The command cycle, and the lines of a host program that access no register
(spec/30_encoding.md R91, R92, R99). -/

namespace Sys2Proof.Machine

/-! ### The engine's step on PEND -/

/-- Every command answers a next state. -/
theorem exec_answers (i : Instr) (s : State) : ∃ t, exec i s = .next t := by
  obtain ⟨t, h, -⟩ | ⟨e, -, h⟩ := exec_cases i s
  · exact ⟨t, h⟩
  · exact ⟨_, h⟩

/-- The engine's step on a legal word. -/
theorem performCommand_of_decode {v : Reg} {i : Instr} {s t : State} (hv : decode v = .ok i)
    (h : exec i s = .next t) : performCommand v s = .next (finishCommand t) := by
  simp only [performCommand, hv, h, mapNext_next]

/-- The engine's step on an illegal word: ILLEGAL_CMD, which leaves KVALID alone. -/
theorem performCommand_of_illegal {v : Reg} {e : Illegal} (s : State) (hv : decode v = .error e) :
    performCommand v s = .next { failed .illegalCmd v s with ticks := s.ticks + 1 } := by
  simp [performCommand, hv, finishCommand, raiseError, failed, dropsKey]

/-- Settles O4: the engine's step is `performCommand`, on a legal and on an illegal word. -/
theorem stepPerformsPend : Obligations.StepPerformsPend := by
  intro s v hm
  rw [step_engine hm]
  refine ⟨fun i hi => ?_, fun e he => performCommand_of_illegal s he⟩
  obtain ⟨t, ht⟩ := exec_answers i s
  exact ⟨t, ht, performCommand_of_decode hi ht⟩

/-! ### Issue -/

/-- A CMD write outside the window issues its command (spec/30_encoding.md R91). -/
theorem step_cmdWrite {s : State} {v : Reg} (hm : HostMoves (.write 0x000 32 v) s)
    (hw : s.window = false) :
    step s = .next (tick (respond .written (issueCommand v (hostMove s)))) := by
  rw [step_host_open hm hw]
  rfl

/-- Settles O11: a CMD write is accepted or discarded, by ERR. -/
theorem commandIssue : Obligations.CommandIssue := by
  intro s v hop hp hw
  rw [step_cmdWrite ⟨hop, .inl hp⟩ hw]
  obtain ⟨he, h⟩ | ⟨he, h⟩ := issueCommand_cases v (hostMove s) <;> rw [h]
  · exact ⟨fun he' => absurd he he', fun _ => ⟨_, rfl⟩⟩
  · exact ⟨fun _ => rfl, fun he' => absurd he' he⟩

/-! ### The mask and the branches -/

/-- A line that is no transaction is taken, in the hazard window or out of it. -/
theorem step_nonTransaction {op : HostOp} {s : State} (hm : HostMoves op s)
    (hop : isTransaction op = false) : step s = .next (tick (hostEffect op (hostMove s))) := by
  have hz : hazard op s = false := by simp [hazard, hop]
  rw [step_host hm, hostStep, hz]
  rfl

theorem step_mask {s : State} {m : Reg} (hm : HostMoves (.mask m) s) :
    step s = .next { s with
      hostLast := s.hostLast &&& m, hostPc := s.hostPc + 1, busyLeft := s.busyLeft - 1,
      ticks := s.ticks + 1 } :=
  step_nonTransaction hm rfl

theorem step_bnz {s : State} {line : Nat} (hm : HostMoves (.bnz line) s) :
    step s = .next { s with
      hostPc := if s.hostLast = 0 then s.hostPc + 1 else line, busyLeft := s.busyLeft - 1,
      ticks := s.ticks + 1 } := by
  rw [step_nonTransaction hm rfl, hostEffect, hostMove_hostLast]
  by_cases h : s.hostLast = 0
  · rw [if_neg (not_not.2 h), if_pos h]
    rfl
  · rw [if_pos h, if_neg h]
    rfl

theorem step_bz {s : State} {line : Nat} (hm : HostMoves (.bz line) s) :
    step s = .next { s with
      hostPc := if s.hostLast = 0 then line else s.hostPc + 1, busyLeft := s.busyLeft - 1,
      ticks := s.ticks + 1 } := by
  rw [step_nonTransaction hm rfl, hostEffect, hostMove_hostLast]
  by_cases h : s.hostLast = 0
  · rw [if_pos h, if_pos h]
    rfl
  · rw [if_neg h, if_neg h]
    rfl

/-- Settles O20: one lemma per line. -/
theorem hostNotationLines : Obligations.HostNotationLines :=
  fun _ _ _ => ⟨step_mask, step_bnz, step_bz⟩

end Sys2Proof.Machine
end

section
/-! PROOFS. The `wait` loop of spec/30_encoding.md R100 ends: the host keeps reading STATUS while the
BUSY duration passes, the engine takes its step, and the next STATUS read returns BUSY = 0. -/

namespace Sys2Proof.Machine

/-- The host is inside the `wait` loop whose first line is `p`, on a way that reads STATUS again: at
the read, or past it with a last read value on which the branch goes back. -/
structure Waiting (p : Nat) (s : State) : Prop where
  readLine : s.hostProg[p]? = some (.read 0x004 32)
  maskLine : s.hostProg[p + 1]? = some (.mask 1)
  branchLine : s.hostProg[p + 2]? = some (.bnz p)
  place : s.hostPc = p ∨ (s.hostPc = p + 1 ∧ s.hostLast &&& 1 ≠ 0) ∨
    (s.hostPc = p + 2 ∧ s.hostLast ≠ 0)

/-- Within `k` steps, none of which faults, the host is past the loop at `p`, with BUSY = 0 and the
hazard window closed. -/
def PassesWait (p k : Nat) (s : State) : Prop :=
  ∃ n t, n ≤ k ∧ Sys2Proof.core.run n s = .next t ∧ t.hostPc = p + 3 ∧ t.pend = none ∧
    t.window = false

theorem PassesWait.mono {p k l : Nat} {s : State} (h : PassesWait p k s) (hkl : k ≤ l) :
    PassesWait p l s := by
  obtain ⟨n, t, hn, ht⟩ := h
  exact ⟨n, t, hn.trans hkl, ht⟩

/-- One step before a state that passes the loop. -/
theorem PassesWait.of_step {p k : Nat} {s t : State} (hs : step s = .next t)
    (h : PassesWait p k t) : PassesWait p (k + 1) s := by
  obtain ⟨n, u, hn, hrun, hu⟩ := h
  exact ⟨n + 1, u, Nat.succ_le_succ hn, (core_run_succ hs).trans hrun, hu⟩

/-- The mask of `wait` leaves the BUSY bit of STATUS (spec/10_state.md R24). -/
theorem status_and_one (s : State) : s.status &&& 1 = if s.pend = none then 0 else 1 := by
  apply BitVec.eq_of_toNat_eq
  rw [BitVec.toNat_and, toNat_status, show (1 : Reg).toNat = 1 from rfl, Nat.and_one_is_mod]
  by_cases hk : s.kvalid = true <;> by_cases hp : s.pend = none <;> simp [hk, hp] <;> omega

/-- The engine's step completes and leaves the host where it was. -/
theorem step_engine_hostSide {v : Reg} {s : State} (hm : EngineMoves v s) :
    ∃ t, step s = .next t ∧ t.pend = none ∧ t.hostProg = s.hostProg ∧ t.hostPc = s.hostPc ∧
      t.hostLast = s.hostLast := by
  obtain ⟨t, ht⟩ : ∃ t, performCommand v s = .next t := by
    cases hd : decode v with
    | ok i =>
      obtain ⟨u, hu⟩ := exec_answers i s
      exact ⟨_, performCommand_of_decode hd hu⟩
    | error e => exact ⟨_, performCommand_of_illegal s hd⟩
  refine ⟨t, (step_engine hm).trans ht, ?_⟩
  obtain ⟨i, u, -, hran, rfl⟩ | ⟨e, -, rfl⟩ := performCommand_ran_or_raised ht
  · exact ⟨rfl, hran.hostProg, hran.hostPc, hran.hostLast⟩
  · exact ⟨rfl, rfl, rfl, rfl⟩

/-- The host's turn, with its place in the program known. -/
theorem hostMoves_at {op : HostOp} {s : State} {k : Nat} (hpc : s.hostPc = k)
    (hline : s.hostProg[k]? = some op) (hturn : s.pend = none ∨ s.busyLeft ≠ 0) : HostMoves op s :=
  ⟨by rw [State.hostOp, hpc, hline], hturn⟩

/-- Past the read, a line of the loop brings the host to the loop's first line, or from the mask to
the branch. -/
theorem Waiting.step_past_read {p : Nat} {s : State} (hs : Waiting p s) (hpc : s.hostPc ≠ p)
    (hturn : s.pend = none ∨ s.busyLeft ≠ 0) :
    ∃ t, step s = .next t ∧ Waiting p t ∧ t.pend = s.pend ∧ t.busyLeft = s.busyLeft - 1 ∧
      (t.hostPc = p ∨ (s.hostPc = p + 1 ∧ t.hostPc = p + 2)) := by
  obtain ⟨hread, hmask, hbranch, hpc' | ⟨hpc', hlast⟩ | ⟨hpc', hlast⟩⟩ := hs
  · exact absurd hpc' hpc
  · have hnext : s.hostPc + 1 = p + 2 := by omega
    exact ⟨_, step_mask (hostMoves_at hpc' hmask hturn),
      ⟨hread, hmask, hbranch, .inr (.inr ⟨hnext, hlast⟩)⟩, rfl, rfl, .inr ⟨hpc', hnext⟩⟩
  · exact ⟨_, step_bnz (hostMoves_at hpc' hbranch hturn),
      ⟨hread, hmask, hbranch, .inl (if_neg hlast)⟩, rfl, rfl, .inl (if_neg hlast)⟩

/-- While a command is pending and the BUSY duration has not passed, a step leaves the host waiting:
the STATUS read returns BUSY = 1, so the branch goes back to it. -/
theorem Waiting.step_busy {p : Nat} {s : State} (hs : Waiting p s) (hp : s.pend ≠ none)
    (hb : s.busyLeft ≠ 0) :
    ∃ t, step s = .next t ∧ Waiting p t ∧ t.pend = s.pend ∧ t.busyLeft = s.busyLeft - 1 := by
  by_cases hpc : s.hostPc = p
  · have hbusy : s.status &&& 1 ≠ 0 := by
      rw [status_and_one, if_neg hp]
      decide
    obtain ⟨hread, hmask, hbranch, -⟩ := hs
    exact ⟨_, step_statusRead (hostMoves_at hpc hread (.inr hb)),
      ⟨hread, hmask, hbranch, .inr (.inl ⟨congrArg (· + 1) hpc, hbusy⟩)⟩, rfl, rfl⟩
  · obtain ⟨t, hstep, ht, htp, htb, -⟩ := hs.step_past_read hpc (.inr hb)
    exact ⟨t, hstep, ht, htp, htb⟩

/-- With no command pending, the loop's first line reads BUSY = 0, which closes the window, and the
branch falls through. -/
theorem Waiting.passes_of_idle_read {p : Nat} {s : State} (hs : Waiting p s) (hpc : s.hostPc = p)
    (hp : s.pend = none) : PassesWait p 3 s := by
  obtain ⟨hread, hmask, hbranch, -⟩ := hs
  have hidle : s.status &&& 1 = 0 := by rw [status_and_one, if_pos hp]
  subst hpc
  refine .of_step (step_statusRead ⟨hread, .inl hp⟩) ?_
  refine .of_step (step_mask ⟨hmask, .inl hp⟩) ?_
  refine .of_step (step_bnz ⟨hbranch, .inl hp⟩) ?_
  exact ⟨0, _, Nat.le_refl _, rfl, if_pos hidle, hp, by simp [hp]⟩

/-- With no command pending, the host is past the loop within five steps: the rest of the loop, if it
stands past the read, and then the loop once. -/
theorem Waiting.passes_of_idle {p : Nat} {s : State} (hs : Waiting p s) (hp : s.pend = none) :
    PassesWait p 5 s := by
  by_cases hpc : s.hostPc = p
  · exact (hs.passes_of_idle_read hpc hp).mono (by decide)
  obtain ⟨t, hstep, ht, htp, -, htpc⟩ := hs.step_past_read hpc (.inl hp)
  refine .of_step hstep ?_
  obtain htpc | ⟨-, htpc⟩ := htpc
  · exact (ht.passes_of_idle_read htpc (htp.trans hp)).mono (by decide)
  · obtain ⟨u, hstep', hu, hup, -, hupc⟩ := ht.step_past_read (by omega) (.inl (htp.trans hp))
    have hupc : u.hostPc = p := by omega
    exact .of_step hstep' (hu.passes_of_idle_read hupc (hup.trans (htp.trans hp)))

/-- With a command pending, by induction on the host steps of its BUSY duration. -/
theorem Waiting.passes_of_busy {p n : Nat} {s : State} {v : Reg} (hs : Waiting p s)
    (hp : s.pend = some v) (hn : s.busyLeft = n) : PassesWait p (n + 6) s := by
  induction n generalizing s with
  | zero =>
    obtain ⟨t, hstep, htp, hprog, hpc, hlast⟩ := step_engine_hostSide ⟨hp, .inl hn⟩
    have ht : Waiting p t := by
      constructor <;> simp only [hprog, hpc, hlast]
      exacts [hs.readLine, hs.maskLine, hs.branchLine, hs.place]
    exact .of_step hstep (ht.passes_of_idle htp)
  | succ n ih =>
    obtain ⟨t, hstep, ht, htp, htn⟩ := hs.step_busy (by simp [hp]) (by omega)
    exact (PassesWait.of_step hstep (ih ht (htp.trans hp) (by omega))).mono (by omega)

/-- Settles O21: the host waits out the BUSY duration, if a command is pending, and then passes the
loop. -/
theorem waitLoopTerminates : Obligations.WaitLoopTerminates := by
  intro s hread hmask hbranch
  have hs : Waiting s.hostPc s := ⟨hread, hmask, hbranch, .inl rfl⟩
  cases hp : s.pend with
  | none => exact (hs.passes_of_idle hp).mono (by omega)
  | some v => exact hs.passes_of_busy hp rfl

end Sys2Proof.Machine
end

section
/-! PROOFS. The laws of the field product and the algebraic form of the S-box
(spec/40_field_and_sbox.md R123 to R125). -/

namespace Sys2Proof.Machine

/-! ### The loop of the field product -/

/-- One round of R123's loop at bit `k` of `b`, on the sum and the shifted multiplicand `x = (p, a)`. -/
def mulRound (b : Byte) (x : Byte × Byte) (k : Nat) : Byte × Byte :=
  (if b.getLsbD k = true then x.1 ^^^ x.2 else x.1, xtime x.2)

/-- `mulBits` shifts the multiplier where R123 counts its bits: after `k` shifts it takes bit `k`. -/
theorem mulBits_eq_foldl (b : Byte) (n k : Nat) (x : Byte × Byte) :
    mulBits n x.2 (b >>> k) x.1 = ((List.range' k n).foldl (mulRound b) x).1 := by
  induction n generalizing k x with
  | zero => rfl
  | succ n ih =>
    rw [List.range'_succ, List.foldl_cons, ← ih]
    simp [mulBits, mulRound, BitVec.shiftRight_add]

theorem mul_eq_foldl (a b : Byte) :
    mul a b = ([0, 1, 2, 3, 4, 5, 6, 7].foldl (mulRound b) (0x00, a)).1 :=
  mulBits_eq_foldl b 8 0 (0x00, a)

/-! ### The laws -/

theorem mul_00 (a : Byte) : mul a 0x00 = 0x00 := by
  simpa using mul_xor_right a 0x00 0x00

theorem mul_xtime (a b : Byte) : mul a (xtime b) = xtime (mul a b) := by
  rw [fieldMul_comm, xtime_mul, fieldMul_comm]

/-- The loop's product by a product: the factor `a` can be taken out of the multiplicand, since it passes
every sum (`mul_xor_right`) and every shift (`mul_xtime`) of the loop. -/
theorem mulBits_mul (n : Nat) (a b c p : Byte) :
    mulBits n (mul a b) c (mul a p) = mul a (mulBits n b c p) := by
  induction n generalizing b c p with
  | zero => rfl
  | succ n ih =>
    simp only [mulBits, ← mul_xtime, ← ih, ← mul_xor_right, apply_ite (mul a)]

theorem mul_assoc_byte (a b c : Byte) : mul (mul a b) c = mul a (mul b c) := by
  have h := mulBits_mul 8 a b c 0x00
  rwa [mul_00] at h

/-- Settles O33: the loop, the laws and the expansions, one lemma each. -/
theorem fieldProductLaws : Obligations.FieldProductLaws :=
  ⟨mul_eq_foldl, fieldMul_comm, mul_assoc_byte, mul_xor_right, mul_01, mul_00, mul_02, mul_03, mul_09,
    mul_0b, mul_0d, mul_0e, by decide, by decide⟩

/-! ### The algebraic S-box -/

/-- R124's affine map undone: the byte that the map takes to `s`. The map's five bit positions and these
three rotations are inverse to each other as linear maps. -/
def affineInv (s : Byte) : Byte :=
  (s ^^^ 0x63).rotateLeft 1 ^^^ (s ^^^ 0x63).rotateLeft 3 ^^^ (s ^^^ 0x63).rotateLeft 6

/-- R124's affine map takes `affineInv s` to `s`, for every byte `s`. -/
theorem getLsbD_affineInv (s : Byte) : ∀ i < 8, s.getLsbD i =
    ((affineInv s).getLsbD i ^^ (affineInv s).getLsbD ((i + 4) % 8) ^^
      (affineInv s).getLsbD ((i + 5) % 8) ^^ (affineInv s).getLsbD ((i + 6) % 8) ^^
      (affineInv s).getLsbD ((i + 7) % 8) ^^ (0x63 : Byte).getLsbD i) := by
  revert s; decide +kernel

theorem affineInv_sbox_zero : affineInv (sbox 0) = 0 := by decide

/-- Behind the affine map, the S-box's entry at a nonzero byte is that byte's field inverse. -/
theorem mul_affineInv_sbox (x : Byte) (hx : x ≠ 0) : mul x (affineInv (sbox x)) = 0x01 := by
  revert x; decide +kernel

/-- Settles O34: the byte that R124 asks for is the entry with the affine map undone. -/
theorem sboxIsAlgebraic : Obligations.SboxIsAlgebraic := by
  refine ⟨fun x => ⟨affineInv (sbox x), fun hx => ?_, mul_affineInv_sbox x,
    getLsbD_affineInv (sbox x)⟩, fun x => ⟨invSbox_sbox x, sbox_invSbox x⟩⟩
  rw [hx, affineInv_sbox_zero]

end Sys2Proof.Machine
end

section
/-! PROOFS. The Word commands: what each leaves in WA, and which of them undo one another
(spec/41_word_ops.md R140 to R144). -/

namespace Sys2Proof.Machine

/-! ### The Word primitives on the 32-bit form -/

/-- RotWord moves the high byte of the 32-bit form below the other three (R141). -/
theorem word32_rotWord (v : Reg) :
    word32 (rotWord (toWord v)) = v.extractLsb' 0 24 ++ v.extractLsb' 24 8 := by
  apply BitVec.eq_of_getLsbD_eq
  intro i hi
  rw [getLsbD_word32, BitVec.getLsbD_append]
  split
  · rfl
  · simp only [rotWord, toWord, BitVec.getLsbD_extractLsb']
    split
    · simp [show i - 8 < 8 by omega, show i - 8 < 24 by omega]
    · split
      · simp [show i - 16 < 8 by omega, show i - 8 < 24 by omega,
          show 8 + (i - 16) = i - 8 by omega]
      · simp [show i - 24 < 8 by omega, show i - 8 < 24 by omega,
          show 16 + (i - 24) = i - 8 by omega]

/-- A rotation by 8 bits, as the join of the two parts it exchanges (R141). -/
theorem rotateLeft_eight (v : Reg) :
    v.rotateLeft 8 = v.extractLsb' 0 24 ++ v.extractLsb' 24 8 := by
  apply BitVec.eq_of_getLsbD_eq
  intro i hi
  rw [BitVec.getLsbD_rotateLeft, BitVec.getLsbD_append]
  split
  · next h => simp [h]
  · next h => simp [h, hi, show i - 8 < 24 by omega]

/-- Four byte rotations bring every byte of a Word back to its place. -/
theorem rotWord_four (w : Word) : rotWord (rotWord (rotWord (rotWord w))) = w := rfl

@[simp] theorem invSubWord_subWord (w : Word) : invSubWord (subWord w) = w := by
  simp [invSubWord, subWord]

theorem wordByte_subWord (w : Word) (r : Fin 4) : wordByte (subWord w) r = sbox (wordByte w r) := by
  fin_cases r <;> rfl

/-- Byte `k` of WA, counted from the low end as a bit slice, is byte `3 - k` of its Word. -/
theorem extractLsb'_word32_subWord (v : Reg) {k : Nat} (hk : k < 4) :
    (word32 (subWord (toWord v))).extractLsb' (8 * k) 8 = sbox (v.extractLsb' (8 * k) 8) := by
  obtain ⟨r, hr⟩ : ∃ r : Fin 4, 8 * k = 24 - 8 * r.val :=
    ⟨⟨3 - k, by omega⟩, by simp only; omega⟩
  rw [hr, ← wordByte_toWord, ← wordByte_toWord, toWord_word32, wordByte_subWord]

@[simp] theorem word32_wxor (u w : Word) : word32 (wxor u w) = word32 u ^^^ word32 w := by
  apply BitVec.eq_of_getLsbD_eq
  intro i _
  simp only [BitVec.getLsbD_xor, getLsbD_word32, wxor]
  split
  · rfl
  · split
    · rfl
    · split <;> rfl

theorem xor_xor_same {n : Nat} (v c : BitVec n) : v ^^^ c ^^^ c = v := by
  rw [BitVec.xor_assoc, BitVec.xor_self, BitVec.xor_zero]

/-- The round constant stands in byte 0 of its Word, the high byte of the 32-bit form (R144). -/
theorem word32_rcon (j : Nat) : word32 (rcon j) = (rc j).setWidth 32 <<< 24 := by
  simp [word32, rcon]

/-- The table of R126 is the source's sequence. -/
theorem getElem?_roundConstants {j : Nat} (h1 : 1 ≤ j) (h10 : j ≤ 10) :
    [1, 2, 4, 8, 16, 32, 64, 128, 27, 54][j - 1]? = some (rc j).toNat := by
  interval_cases j <;> rfl

/-! ### The commands -/

theorem exec_rotword (s : State) :
    exec .rotword s = .next { s with wa := word32 (rotWord (toWord s.wa)) } := rfl

theorem exec_subword (s : State) :
    exec .subword s = .next { s with wa := word32 (subWord (toWord s.wa)) } := rfl

theorem exec_xorword (s : State) : exec .xorword s = .next { s with wa := s.wa ^^^ s.wb } := by
  simp [exec, execXorword]

theorem exec_rconxor {j : BitVec 4} (h1 : 1 ≤ j.toNat) (h10 : j.toNat ≤ 10) (s : State) :
    exec (.rconxor j) s = .next { s with wa := s.wa ^^^ word32 (rcon j.toNat) } := by
  obtain ⟨-, -, h⟩ | ⟨hj, -⟩ := execRconxor_cases j s
  · simpa [exec] using h
  · exact absurd ⟨h1, h10⟩ hj

/-- SUBWORD loses nothing: the inverse S-box restores the WA it started from. -/
theorem state_of_exec_subword {s u : State} (h : exec .subword s = .next u) :
    s = { u with wa := word32 (invSubWord (toWord u.wa)) } := by
  rw [exec_subword] at h
  cases h
  simp

/-- The word of a RCONXOR outside 1..10, `0x23 | j<<8`, is illegal by clause (d) of R94. -/
theorem rconxor_word_illegal {j : BitVec 4} (hj : j.toNat = 0 ∨ 10 < j.toNat) :
    decode (encode (.rconxor j)) = .error .constantIndex := by
  obtain ⟨hrsv, hopc, himm⟩ := Laws.EncodeFields.rconxor j
  rw [decode, if_pos hrsv, hopc, himm]
  exact if_neg (by simp only [immOf]; omega)

/-! ### The statements -/

/-- Settles O29: both forms are RotWord on the 32-bit form, and four RotWords are the identity. -/
theorem rotwordRotatesLeft8 : Obligations.RotwordRotatesLeft8 := by
  refine ⟨fun s => ?_, fun s => ?_, fun s => ?_⟩
  · rw [exec_rotword, word32_rotWord]
  · rw [exec_rotword, word32_rotWord, rotateLeft_eight]
  · simp only [execAll, exec_rotword, toWord_word32, rotWord_four, word32_toWord]

/-- Settles O30: two states that reach `u` are both the state that the inverse S-box
restores from it. -/
theorem subwordSubstitutesBytes : Obligations.SubwordSubstitutesBytes := by
  refine ⟨fun s => ⟨_, exec_subword s, fun k hk => extractLsb'_word32_subWord s.wa hk⟩, ?_⟩
  intro s t u hs ht
  rw [state_of_exec_subword hs, ← state_of_exec_subword ht]

/-- Settles O31: WB is unchanged, so the second XORWORD adds the same term again. -/
theorem xorwordXors : Obligations.XorwordXors := by
  refine ⟨exec_xorword, fun s => ?_⟩
  simp only [execAll, exec_xorword, xor_xor_same]

/-- Settles O32: the constant is the source's by the table of R126, and the illegal words fail the
decoder's operand check. -/
theorem rconxorXorsConstant : Obligations.RconxorXorsConstant := by
  refine ⟨fun s j c h1 h10 hc => ⟨?_, ?_⟩, fun j hj => rconxor_word_illegal hj⟩
  · rw [getElem?_roundConstants h1 h10] at hc
    cases hc
    rw [exec_rconxor h1 h10, word32_rcon, BitVec.ofNat_toNat]
  · simp only [execAll, exec_rconxor h1 h10, xor_xor_same]

end Sys2Proof.Machine
end

section
/-! PROOFS. The StateArray primitives entry by entry, and the pairs of them that undo each other
(spec/42_state_ops.md R150, R160). -/

namespace Sys2Proof.Machine

/-! ### Entries -/

/-- A block is its sixteen entries. -/
theorem block_ext_entry {s t : Block} (h : ∀ r c, blockEntry s r c = blockEntry t r c) : s = t := by
  have hcol : ∀ c, blockCol s c = blockCol t c := fun c => word_ext (h 0 c) (h 1 c) (h 2 c) (h 3 c)
  exact block_ext (hcol 0) (hcol 1) (hcol 2) (hcol 3)

/-- A primitive that maps each column by `f`, read at column `c`. -/
theorem blockCol_columnwise (f : Word → Word) (s : Block) (c : Fin 4) :
    blockCol ⟨f s.c0, f s.c1, f s.c2, f s.c3⟩ c = f (blockCol s c) := by
  fin_cases c <;> rfl

theorem wordByte_invSubWord (w : Word) (r : Fin 4) :
    wordByte (invSubWord w) r = invSbox (wordByte w r) := by
  fin_cases r <;> rfl

theorem wordByte_wxor (u w : Word) (r : Fin 4) :
    wordByte (wxor u w) r = wordByte u r ^^^ wordByte w r := by
  fin_cases r <;> rfl

@[simp] theorem blockEntry_subBytes (s : Block) (r c : Fin 4) :
    blockEntry (subBytes s) r c = sbox (blockEntry s r c) := by
  rw [blockEntry, subBytes, blockCol_columnwise subWord, wordByte_subWord, blockEntry]

@[simp] theorem blockEntry_invSubBytes (s : Block) (r c : Fin 4) :
    blockEntry (invSubBytes s) r c = invSbox (blockEntry s r c) := by
  rw [blockEntry, invSubBytes, blockCol_columnwise invSubWord, wordByte_invSubWord, blockEntry]

@[simp] theorem blockEntry_shiftRows (s : Block) (r c : Fin 4) :
    blockEntry (shiftRows s) r c = blockEntry s r (c + r) := by
  fin_cases r <;> fin_cases c <;> rfl

@[simp] theorem blockEntry_invShiftRows (s : Block) (r c : Fin 4) :
    blockEntry (invShiftRows s) r c = blockEntry s r (c - r) := by
  fin_cases r <;> fin_cases c <;> rfl

@[simp] theorem blockEntry_addRoundKey (s k : Block) (r c : Fin 4) :
    blockEntry (addRoundKey s k) r c = blockEntry s r c ^^^ blockEntry k r c := by
  have hcol : blockCol (addRoundKey s k) c = wxor (blockCol s c) (blockCol k c) := by
    fin_cases c <;> rfl
  rw [blockEntry, hcol, wordByte_wxor, blockEntry, blockEntry]

/-- A block whose columns go through one circulant matrix: row `r` of the matrix has the coefficient
`m[(k - r) mod 4]` at column `k` (R150). -/
theorem blockEntry_circulant (m0 m1 m2 m3 : Byte) (s : Block) (r c : Fin 4) :
    blockEntry ⟨mixColumn m0 m1 m2 m3 s.c0, mixColumn m0 m1 m2 m3 s.c1, mixColumn m0 m1 m2 m3 s.c2,
        mixColumn m0 m1 m2 m3 s.c3⟩ r c =
      mul ([m0, m1, m2, m3][(0 - r).val]!) (blockEntry s 0 c) ^^^
      mul ([m0, m1, m2, m3][(1 - r).val]!) (blockEntry s 1 c) ^^^
      mul ([m0, m1, m2, m3][(2 - r).val]!) (blockEntry s 2 c) ^^^
      mul ([m0, m1, m2, m3][(3 - r).val]!) (blockEntry s 3 c) := by
  rw [blockEntry, blockCol_columnwise (mixColumn m0 m1 m2 m3)]
  simp only [fieldMul_comm _ (blockEntry s _ c)]
  fin_cases r <;> rfl

/-! ### Inverse pairs -/

/-- A circulant matrix after a circulant matrix is one: the first rows are multiplied with indices
mod 4. -/
theorem mixColumn_mixColumn (m0 m1 m2 m3 n0 n1 n2 n3 : Byte) (a : Word) :
    mixColumn m0 m1 m2 m3 (mixColumn n0 n1 n2 n3 a) =
      mixColumn (mul n0 m0 ^^^ mul n3 m1 ^^^ mul n2 m2 ^^^ mul n1 m3)
        (mul n1 m0 ^^^ mul n0 m1 ^^^ mul n3 m2 ^^^ mul n2 m3)
        (mul n2 m0 ^^^ mul n1 m1 ^^^ mul n0 m2 ^^^ mul n3 m3)
        (mul n3 m0 ^^^ mul n2 m1 ^^^ mul n1 m2 ^^^ mul n0 m3) a := by
  apply word_ext <;> simp only [mixColumn, mul_xor_left, mul_xor_right, mul_assoc_byte] <;> ac_rfl

/-- The circulant matrix with first row 01, 00, 00, 00 is the identity. -/
theorem mixColumn_identity (a : Word) : mixColumn 0x01 0x00 0x00 0x00 a = a := by
  simp only [mixColumn, mul_01, mul_00]
  simp

/-- The matrix product's first row is computed to be the identity's. -/
theorem invMixWord_mixWord (a : Word) : invMixWord (mixWord a) = a :=
  (mixColumn_mixColumn 0x0e 0x0b 0x0d 0x09 0x02 0x03 0x01 0x01 a).trans (mixColumn_identity a)

theorem mixWord_invMixWord (a : Word) : mixWord (invMixWord a) = a :=
  (mixColumn_mixColumn 0x02 0x03 0x01 0x01 0x0e 0x0b 0x0d 0x09 a).trans (mixColumn_identity a)

theorem invSubBytes_subBytes (s : Block) : invSubBytes (subBytes s) = s :=
  block_ext_entry fun r c => by simp

theorem subBytes_invSubBytes (s : Block) : subBytes (invSubBytes s) = s :=
  block_ext_entry fun r c => by simp

theorem invShiftRows_shiftRows (s : Block) : invShiftRows (shiftRows s) = s :=
  block_ext_entry fun r c => by simp

theorem shiftRows_invShiftRows (s : Block) : shiftRows (invShiftRows s) = s :=
  block_ext_entry fun r c => by simp

theorem invMixColumns_mixColumns (s : Block) : invMixColumns (mixColumns s) = s := by
  simp only [invMixColumns, mixColumns, invMixWord_mixWord]

theorem mixColumns_invMixColumns (s : Block) : mixColumns (invMixColumns s) = s := by
  simp only [invMixColumns, mixColumns, mixWord_invMixWord]

theorem addRoundKey_addRoundKey (s k : Block) : addRoundKey (addRoundKey s k) k = s :=
  block_ext_entry fun r c => by simp

/-- Settles O42: the substitutions act on the entry's value, the shifts on its place. -/
theorem inversePairs : Obligations.InversePairs := by
  refine fun s k => ⟨⟨invSubBytes_subBytes s, subBytes_invSubBytes s⟩,
    ⟨invShiftRows_shiftRows s, shiftRows_invShiftRows s⟩,
    ⟨invMixColumns_mixColumns s, mixColumns_invMixColumns s⟩, addRoundKey_addRoundKey s k,
    ?_, ?_, ?_, ?_⟩
  all_goals exact block_ext_entry fun r c => by simp

/-- Row `r` moves by `3r` places to the left, which are `r` to the right. -/
theorem shiftRows_three (s : Block) : shiftRows (shiftRows (shiftRows s)) = invShiftRows s := by
  have hplace : ∀ r c : Fin 4, c + r + r + r = c - r := by decide
  exact block_ext_entry fun r c => by simp [hplace]

end Sys2Proof.Machine
end

section
/-! PROOFS. The StateArray commands and the moves of S from and to MEM (spec/42_state_ops.md R151 to
R159). -/

namespace Sys2Proof.Machine

theorem execAll_cons {i : Instr} {is : List Instr} {s t : State} (h : exec i s = .next t) :
    execAll (i :: is) s = execAll is t := by
  rw [execAll, h]

/-! ### Substitutions, shifts and mixes -/

/-- Settles O35: every entry is substituted. -/
theorem subBytesCommands : Obligations.SubBytesCommands := fun s =>
  ⟨⟨subBytes s.st, rfl, blockEntry_subBytes s.st⟩,
    ⟨invSubBytes s.st, rfl, blockEntry_invSubBytes s.st⟩⟩

theorem exec_shiftrows (s : State) : exec .shiftrows s = .next { s with st := shiftRows s.st } := rfl

theorem exec_invshiftrows (s : State) :
    exec .invshiftrows s = .next { s with st := invShiftRows s.st } := rfl

/-- Settles O36: three shifts are one inverse shift, which undoes the one before them. -/
theorem shiftRowsCommands : Obligations.ShiftRowsCommands := by
  refine fun s => ⟨⟨_, exec_shiftrows s, blockEntry_shiftRows s.st⟩,
    ⟨_, exec_invshiftrows s, blockEntry_invShiftRows s.st⟩, ?_, ?_⟩
  · simp only [execAll, exec_shiftrows, shiftRows_three, shiftRows_invShiftRows]
  · simp only [execAll, exec_shiftrows, exec_invshiftrows, shiftRows_three]

/-- Settles O37: each column goes through the circulant matrix of its command. -/
theorem mixColumnsCommands : Obligations.MixColumnsCommands := fun s =>
  ⟨⟨mixColumns s.st, rfl, blockEntry_circulant 0x02 0x03 0x01 0x01 s.st⟩,
    ⟨invMixColumns s.st, rfl, blockEntry_circulant 0x0e 0x0b 0x0d 0x09 s.st⟩⟩

/-! ### The round key -/

/-- Round key `r` is `W[4r]` to `W[4r + 3]` (spec/10_state.md R28). -/
theorem blockEntry_roundKey (w : Vector Word 44) (r : Fin 11) (i c : Fin 4) :
    blockEntry (roundKey w r) i c = wordByte w[4 * r.val + c.val] i := by
  fin_cases c <;> rfl

theorem toNat_roundIndex (r : Fin 11) : (BitVec.ofNat 4 r.val).toNat = r.val := by
  simp only [BitVec.toNat_ofNat]; omega

theorem exec_addrk_keyed {s : State} (r : Fin 11) (hk : s.kvalid = true) :
    exec (.addrk (BitVec.ofNat 4 r.val)) s =
      .next { s with st := addRoundKey s.st (roundKey s.w r) } := by
  have hr := toNat_roundIndex r
  obtain ⟨_, -, h⟩ | ⟨-, hk', -⟩ | ⟨hr', -⟩ := execAddrk_cases (BitVec.ofNat 4 r.val) s
  · exact h.trans (by simp only [hr]; rfl)
  · simp [hk] at hk'
  · omega

theorem exec_addrk_noKey {s : State} (r : Fin 11) (hk : s.kvalid = false) :
    exec (.addrk (BitVec.ofNat 4 r.val)) s =
      .next (failed .noKey (encode (.addrk (BitVec.ofNat 4 r.val))) s) := by
  have hr := toNat_roundIndex r
  obtain ⟨_, hk', -⟩ | ⟨-, -, h⟩ | ⟨hr', -⟩ := execAddrk_cases (BitVec.ofNat 4 r.val) s
  · simp [hk] at hk'
  · exact h.trans (congrArg _ (raiseError_failed .noKey s (by simp)))
  · omega

/-- The word of ADDRK r is `0x16 | r<<8` (spec/30_encoding.md R95). -/
theorem encode_addrk (r : Fin 11) : encode (.addrk (BitVec.ofNat 4 r.val)) =
    0x00000016 ||| (BitVec.ofNat 32 r.val <<< 8) := by
  revert r; decide

/-- Settles O38: the second ADDRK adds the same round key again, since the first leaves W and KVALID. -/
theorem addrkCommand : Obligations.AddrkCommand := by
  refine fun s r => ⟨fun hk => ⟨⟨_, exec_addrk_keyed r hk, fun i c => ?_⟩, ?_⟩, fun hk => ?_⟩
  · rw [blockEntry_addRoundKey, blockEntry_roundKey]
  · rw [execAll_cons (exec_addrk_keyed r hk), execAll_cons (exec_addrk_keyed r (by exact hk)),
      addRoundKey_addRoundKey, execAll]
  · rw [exec_addrk_noKey r hk, encode_addrk]

/-! ### Loads and stores of S -/

/-- `S[r + 4c]` is the entry `s[r][c]` (spec/00_scope.md R11). -/
theorem getElem?_blockBytes (s : Block) (r c : Fin 4) :
    (blockBytes s)[r.val + 4 * c.val]? = some (blockEntry s r c) := by
  fin_cases r <;> fin_cases c <;> rfl

theorem blockEntry_blockOfBytes_readBytes (s : State) (a : Nat) (r c : Fin 4) :
    blockEntry (blockOfBytes (s.readBytes a 16)) r c = s.readByte (a + (r.val + 4 * c.val)) := by
  have h := getElem?_blockBytes (blockOfBytes (s.readBytes a 16)) r c
  rw [blockBytes_blockOfBytes (length_readBytes s a 16), getElem?_readBytes s (by omega)] at h
  exact (Option.some.inj h).symm

/-- Storing the bytes that were read from the same place keeps every written byte. -/
theorem read_writeBytes_readBytes {s : State} {c : Nat} {b : Byte} (a n : Nat)
    (h : Memory.read s.mem c = some b) :
    Memory.read (Memory.writeBytes s.mem a (s.readBytes a n)) c = some b := by
  by_cases hc : a ≤ c ∧ c < a + n
  · obtain ⟨k, rfl⟩ := Nat.exists_eq_add_of_le hc.1
    have hk : k < n := by omega
    rw [read_writeBytes_inside _ (by simpa using hk), getElem?_readBytes s hk, readByte_of_read h]
  · rwa [read_writeBytes_outside _ (by rw [length_readBytes]; omega)]

/-- A load reads back the bytes stored at the same place. -/
theorem readBytes_writeBytes_same (s : State) (a : Nat) (bs : List Byte) :
    (s.writeBytes a bs).readBytes a bs.length = bs :=
  readBytes_of_read fun _ hk => read_writeBytes_inside s.mem hk

theorem exec_ldstate {s : State} (h : s.src.toNat + 16 ≤ s.cfg.memBytes) :
    exec .ldstate s = .next { s with st := blockOfBytes (s.readBytes s.src.toNat 16) } := by
  obtain ⟨-, he⟩ | ⟨h', -⟩ := execLdstate_cases s
  · exact he
  · omega

theorem exec_ststate {s : State} (h : s.dst.toNat + 16 ≤ s.cfg.memBytes) :
    exec .ststate s = .next (s.writeBytes s.dst.toNat (blockBytes s.st)) := by
  obtain ⟨-, he⟩ | ⟨h', -⟩ := execStstate_cases s
  · exact he
  · omega

/-- Settles O39: entry (r, c) of the loaded block is byte r + 4c of the bytes read. -/
theorem ldstateCommand : Obligations.LdstateCommand := by
  refine fun s => ⟨fun h => ⟨_, exec_ldstate h, blockEntry_blockOfBytes_readBytes s _⟩, fun h => ?_⟩
  obtain ⟨h', -⟩ | ⟨-, he⟩ := execLdstate_cases s
  · omega
  · exact he.trans (congrArg _ (raiseError_failed (i := .ldstate) .memRange s (by simp)))

/-- Settles O40: byte r + 4c of the bytes stored is entry (r, c) of S, and MEM is unchanged outside
them. -/
theorem ststateCommand : Obligations.StstateCommand := by
  refine fun s => ⟨fun h => ⟨_, exec_ststate h, fun r c => ?_, fun a ha => ?_⟩, fun h => ?_⟩
  · rw [read_writeBytes_inside _ (by rw [length_blockBytes]; omega), getElem?_blockBytes]
  · exact read_writeBytes_outside _ ha
  · obtain ⟨h', -⟩ | ⟨-, he⟩ := execStstate_cases s
    · omega
    · exact he.trans (congrArg _ (raiseError_failed (i := .ststate) .memRange s (by simp)))

/-- Settles O41: the second command moves the sixteen bytes back to where the first took them
from. -/
theorem loadStoreLossless : Obligations.LoadStoreLossless := by
  intro s hsd hsrc
  have hdst : s.dst.toNat + 16 ≤ s.cfg.memBytes := hsd ▸ hsrc
  constructor
  · refine ⟨_, (execAll_cons (exec_ldstate hsrc)).trans (execAll_cons (exec_ststate hdst)), ?_⟩
    intro a b hab
    simp only [writeBytes_mem, blockBytes_blockOfBytes (length_readBytes s _ 16), ← hsd]
    exact read_writeBytes_readBytes _ 16 hab
  · refine ⟨_, (execAll_cons (exec_ststate hdst)).trans (execAll_cons (exec_ldstate hsrc)), ?_⟩
    have hread := readBytes_writeBytes_same s s.dst.toNat (blockBytes s.st)
    simp only [writeBytes_src, hsd]
    rw [← length_blockBytes s.st, hread, blockOfBytes_blockBytes]

end Sys2Proof.Machine
end

section
/-! PROOFS. The key schedule: Expand's recurrence, its step by the Word commands, and KEXP
(spec/43_key_schedule.md R170 to R174). -/

namespace Sys2Proof.Machine

/-! ### The recurrence -/

/-- The loop of R170 behind the four Words it starts from: each Word of it follows from the ones one and
four places before. -/
theorem getElem_expandFrom (i n m : Nat) (w0 w1 w2 w3 : Word) (hm : m < n) :
    (expandFrom i n w0 w1 w2 w3)[m]'(by rwa [length_expandFrom]) =
      nextWord (i + m)
        ((w0 :: w1 :: w2 :: w3 :: expandFrom i n w0 w1 w2 w3)[m + 3]'(by
          simp only [List.length_cons, length_expandFrom]; omega))
        ((w0 :: w1 :: w2 :: w3 :: expandFrom i n w0 w1 w2 w3)[m]'(by
          simp only [List.length_cons, length_expandFrom]; omega)) := by
  induction m generalizing i n w0 w1 w2 w3 with
  | zero =>
    cases n with
    | zero => omega
    | succ n => rfl
  | succ m ih =>
    cases n with
    | zero => omega
    | succ n =>
      have h := ih (i + 1) n w1 w2 w3 (nextWord i w3 w0) (by omega)
      rw [show i + 1 + m = i + (m + 1) by omega] at h
      exact h

/-- R170, the loop of Expand. -/
theorem getElem_expand_eq_nextWord (k : List Byte) {i : Nat} (h4 : 4 ≤ i) (h44 : i < 44) :
    (expand k)[i] = nextWord i (expand k)[i - 1] (expand k)[i - 4] := by
  obtain ⟨m, rfl⟩ := Nat.exists_eq_add_of_le' h4
  have hstep := getElem_expandFrom 4 40 m (wordAt k 0) (wordAt k 4) (wordAt k 8) (wordAt k 12) (by omega)
  rw [Nat.add_comm 4 m] at hstep
  exact hstep

/-- R170, the first four Words of Expand: "one word per 4-byte chunk". -/
theorem getElem_expand_key (k : List Byte) (i : Fin 4) : (expand k)[i.val] = wordAt k (4 * i.val) := by
  fin_cases i <;> rfl

theorem wordAt_eq_getElem (k : List Byte) {a : Nat} (h : a + 3 < k.length) :
    wordAt k a = ⟨k[a], k[a + 1], k[a + 2], k[a + 3]⟩ := by
  simp only [wordAt, List.getD_eq_getElem?_getD, List.getElem?_eq_getElem h,
    List.getElem?_eq_getElem (show a < k.length by omega),
    List.getElem?_eq_getElem (show a + 1 < k.length by omega),
    List.getElem?_eq_getElem (show a + 2 < k.length by omega), Option.getD_some]

/-- Settles O44: the key's Words stand before the loop, and the loop's step is `nextWord`. -/
theorem expandRecurrence : Obligations.ExpandRecurrence := by
  refine fun k hk => ⟨fun i => ?_, fun i h => ?_⟩
  · rw [getElem_expand_key, wordAt_eq_getElem k (by omega)]
  · exact getElem_expand_eq_nextWord k h.1 h.2

/-! ### One step by the Word commands -/

/-- ROTWORD, SUBWORD and RCONXOR j leave in WA the term that R170 adds to W[i-4] for i = 4j. -/
theorem execAll_roundTerm {s : State} {prev : Word} {j : Nat} (hwa : s.wa = word32 prev)
    (h1 : 1 ≤ j) (h10 : j ≤ 10) :
    execAll [.rotword, .subword, .rconxor (BitVec.ofNat 4 j)] s =
      .next { s with wa := word32 (subWord (rotWord prev)) ^^^ word32 (rcon j) } := by
  have hj : (BitVec.ofNat 4 j).toNat = j := by simp only [BitVec.toNat_ofNat]; omega
  rw [execAll_cons (exec_rotword s), execAll_cons (exec_subword _),
    execAll_cons (exec_rconxor (by omega) (by omega) _), execAll]
  simp only [hwa, toWord_word32, hj]

/-- A step of R170 with i mod 4 = 0, with its terms in the order in which the Word commands add them. -/
theorem word32_nextWord_round {i : Nat} (hi : i % 4 = 0) (prev back4 : Word) :
    word32 (nextWord i prev back4) =
      word32 (subWord (rotWord prev)) ^^^ word32 (rcon (i / 4)) ^^^ word32 back4 := by
  rw [nextWord, if_pos hi, word32_wxor, word32_wxor]
  ac_rfl

theorem word32_nextWord_within {i : Nat} (hi : i % 4 ≠ 0) (prev back4 : Word) :
    word32 (nextWord i prev back4) = word32 prev ^^^ word32 back4 := by
  rw [nextWord, if_neg hi, word32_wxor, BitVec.xor_comm]

/-- Settles O45: XORWORD adds W[i-4] last, where R170 adds it first. -/
theorem wordCommandsStepSchedule : Obligations.WordCommandsStepSchedule := by
  intro k i h s _ hwa
  rw [getElem_expand_eq_nextWord k h.1 h.2]
  constructor
  · intro hi
    refine ⟨_, _, execAll_roundTerm hwa (by omega) (by omega), exec_xorword _, ?_⟩
    exact (word32_nextWord_round hi _ _).symm
  · intro hi
    refine ⟨_, exec_xorword _, ?_⟩
    rw [word32_nextWord_within hi, ← hwa]

/-! ### KEXP -/

/-- R225 for KEXP: its two errors also clear KVALID. -/
theorem raiseError_kexp {e : ErrCode} (he : e = .configError ∨ e = .memRange) (s : State) :
    raiseError e (encode .kexp) s = { failed e 0x00000001 s with kvalid := false } := by
  have hdrop : dropsKey e (encode .kexp) = true := by
    obtain rfl | rfl := he <;> rfl
  simp only [raiseError, hdrop, Bool.not_true, Bool.and_false]
  rfl

/-- Settles O43: the three branches of R171 exclude one another, and both errors are KEXP's of R225. -/
theorem kexpCommand : Obligations.KexpCommand := by
  intro s
  obtain ⟨hlen, hsrc, h⟩ | ⟨hlen, h⟩ | ⟨hlen, hsrc, h⟩ := execKexp_cases s
  · exact ⟨fun hl => absurd hlen hl, fun _ hr => by omega, fun _ _ => h⟩
  · rw [raiseError_kexp (.inl rfl)] at h
    exact ⟨fun _ => h, fun hl => absurd hl hlen, fun hl => absurd hl hlen⟩
  · rw [raiseError_kexp (.inr rfl)] at h
    exact ⟨fun hl => absurd hlen hl, fun _ _ => h, fun _ hr => by omega⟩

end Sys2Proof.Machine
end

section
/-! PROOFS. The block cipher: its commands, its inverse, and the primitive sequences that compute it
(spec/44_block_cipher.md R180 to R185). -/

namespace Sys2Proof.Machine

/-! ### ENCBLK and DECBLK -/

theorem exec_encblk_keyed {s : State} (hk : s.kvalid = true) :
    exec .encblk s = .next { s with st := cipher s.w s.st } := by
  obtain ⟨-, h⟩ | ⟨hk', -⟩ := execEncblk_cases s
  · exact h
  · simp [hk] at hk'

theorem exec_decblk_keyed {s : State} (hk : s.kvalid = true) :
    exec .decblk s = .next { s with st := invCipher s.w s.st } := by
  obtain ⟨-, h⟩ | ⟨hk', -⟩ := execDecblk_cases s
  · exact h
  · simp [hk] at hk'

theorem exec_encblk_noKey {s : State} (hk : s.kvalid = false) :
    exec .encblk s = .next (failed .noKey 0x00000002 s) := by
  obtain ⟨hk', -⟩ | ⟨-, h⟩ := execEncblk_cases s
  · simp [hk] at hk'
  · exact h.trans (congrArg _ (raiseError_failed (i := .encblk) .noKey s (by simp)))

theorem exec_decblk_noKey {s : State} (hk : s.kvalid = false) :
    exec .decblk s = .next (failed .noKey 0x00000003 s) := by
  obtain ⟨hk', -⟩ | ⟨-, h⟩ := execDecblk_cases s
  · simp [hk] at hk'
  · exact h.trans (congrArg _ (raiseError_failed (i := .decblk) .noKey s (by simp)))

/-- Settles O46: KVALID alone decides between the cipher and NO_KEY. -/
theorem blockCommands : Obligations.BlockCommands := fun _ =>
  ⟨fun hk => ⟨exec_encblk_keyed hk, exec_decblk_keyed hk⟩,
    fun hk => ⟨exec_encblk_noKey hk, exec_decblk_noKey hk⟩⟩

/-! ### Cipher and InvCipher undo each other

A round of Cipher ends where a round of InvCipher has its middle: between the substitution and shift and
the rest. So the rounds 1 to 9 of one undo those of the other up to that half round. -/

/-- The first half of a round of Cipher. -/
def substShift (b : Block) : Block := shiftRows (subBytes b)

/-- The first half of a round of InvCipher. -/
def invSubstShift (b : Block) : Block := invSubBytes (invShiftRows b)

@[simp] theorem invSubstShift_substShift (b : Block) : invSubstShift (substShift b) = b := by
  rw [invSubstShift, substShift, invShiftRows_shiftRows, invSubBytes_subBytes]

@[simp] theorem substShift_invSubstShift (b : Block) : substShift (invSubstShift b) = b := by
  rw [invSubstShift, substShift, subBytes_invSubBytes, shiftRows_invShiftRows]

/-- The rounds that mix the columns in both functions. -/
def mixedRounds : List (Fin 11) := [1, 2, 3, 4, 5, 6, 7, 8, 9]

theorem ne_of_mem_mixedRounds : ∀ r ∈ mixedRounds, r ≠ 0 ∧ r ≠ 10 := by decide

theorem cipher_eq (w : Vector Word 44) (b : Block) : cipher w b = addRoundKey
    (substShift (mixedRounds.foldl (encRound w) (addRoundKey b (roundKey w 0)))) (roundKey w 10) :=
  rfl

theorem invCipher_eq (w : Vector Word 44) (b : Block) : invCipher w b = addRoundKey
    (invSubstShift (mixedRounds.reverse.foldl (decRound w) (addRoundKey b (roundKey w 10))))
    (roundKey w 0) :=
  rfl

theorem encRound_mixed (w : Vector Word 44) (b : Block) {r : Fin 11} (h : r ≠ 10) :
    encRound w b r = addRoundKey (mixColumns (substShift b)) (roundKey w r) := by
  rw [encRound, if_pos h, substShift]

theorem decRound_mixed (w : Vector Word 44) (b : Block) {r : Fin 11} (h : r ≠ 0) :
    decRound w b r = invMixColumns (addRoundKey (invSubstShift b) (roundKey w r)) := by
  rw [decRound, if_pos h, invSubstShift]

theorem decRound_substShift_encRound (w : Vector Word 44) (b : Block) {r : Fin 11}
    (h : r ≠ 0 ∧ r ≠ 10) : decRound w (substShift (encRound w b r)) r = substShift b := by
  rw [decRound_mixed w _ h.1, invSubstShift_substShift, encRound_mixed w b h.2,
    addRoundKey_addRoundKey, invMixColumns_mixColumns]

theorem encRound_invSubstShift_decRound (w : Vector Word 44) (b : Block) {r : Fin 11}
    (h : r ≠ 0 ∧ r ≠ 10) : encRound w (invSubstShift (decRound w b r)) r = invSubstShift b := by
  rw [encRound_mixed w _ h.2, substShift_invSubstShift, decRound_mixed w b h.1,
    mixColumns_invMixColumns, addRoundKey_addRoundKey]

/-- If each step of `g` undoes the same step of `f` up to `h`, so do all the steps in reverse order. -/
theorem foldl_reverse_foldl {α β : Type} {f g : α → β → α} {h : α → α} {rs : List β}
    (hstep : ∀ r ∈ rs, ∀ a, g (h (f a r)) r = h a) (a : α) :
    rs.reverse.foldl g (h (rs.foldl f a)) = h a := by
  induction rs generalizing a with
  | nil => rfl
  | cons r rs ih =>
    have hrest := ih (fun q hq => hstep q (List.mem_cons_of_mem r hq)) (f a r)
    rw [List.foldl_cons, List.reverse_cons, List.foldl_append, hrest, List.foldl_cons, List.foldl_nil,
      hstep r List.mem_cons_self a]

/-- R184. -/
theorem invCipher_cipher (w : Vector Word 44) (b : Block) : invCipher w (cipher w b) = b := by
  have hrounds := foldl_reverse_foldl fun r hr a =>
    decRound_substShift_encRound w a (ne_of_mem_mixedRounds r hr)
  rw [invCipher_eq, cipher_eq, addRoundKey_addRoundKey, hrounds, invSubstShift_substShift,
    addRoundKey_addRoundKey]

/-- R184, the other order. -/
theorem cipher_invCipher (w : Vector Word 44) (b : Block) : cipher w (invCipher w b) = b := by
  have hrounds := foldl_reverse_foldl (rs := mixedRounds.reverse) fun r hr a =>
    encRound_invSubstShift_decRound w a (ne_of_mem_mixedRounds r (List.mem_reverse.mp hr))
  rw [List.reverse_reverse] at hrounds
  rw [cipher_eq, invCipher_eq, addRoundKey_addRoundKey, hrounds, substShift_invSubstShift,
    addRoundKey_addRoundKey]

/-! ### Command sequences that replace S -/

theorem execAll_append {is : List Instr} {s t : State} (h : execAll is s = .next t) (js : List Instr) :
    execAll (is ++ js) s = execAll js t := by
  induction is generalizing s with
  | nil => cases h; rfl
  | cons i is ih =>
    obtain ⟨u, hu⟩ := exec_answers i s
    rw [execAll_cons hu] at h
    rw [List.cons_append, execAll_cons hu, ih h]

/-- With a valid schedule the commands `is`, one after the other, replace S by `f` of W and S and change
nothing else. -/
def ReplacesBlock (is : List Instr) (f : Vector Word 44 → Block → Block) : Prop :=
  ∀ s : State, s.kvalid = true → execAll is s = .next { s with st := f s.w s.st }

namespace ReplacesBlock

variable {is js : List Instr} {f g : Vector Word 44 → Block → Block}

theorem nil : ReplacesBlock [] fun _ b => b := fun _ _ => rfl

theorem append (hi : ReplacesBlock is f) (hj : ReplacesBlock js g) :
    ReplacesBlock (is ++ js) fun w b => g w (f w b) :=
  fun s hk => (execAll_append (hi s hk) js).trans (hj _ hk)

theorem onlyIf (hi : ReplacesBlock is f) (p : Prop) [Decidable p] :
    ReplacesBlock (if p then is else []) fun w b => if p then f w b else b := by
  split
  · exact hi
  · exact nil

theorem flatMap {rounds : List (Fin 11)} {cmds : Fin 11 → List Instr}
    {round : Vector Word 44 → Block → Fin 11 → Block}
    (h : ∀ r, ReplacesBlock (cmds r) fun w b => round w b r) :
    ReplacesBlock (rounds.flatMap cmds) fun w b => rounds.foldl (round w) b := by
  induction rounds with
  | nil => exact nil
  | cons r rounds ih => exact (h r).append ih

theorem subbytes : ReplacesBlock [.subbytes] fun _ => subBytes := fun _ _ => rfl

theorem invsubbytes : ReplacesBlock [.invsubbytes] fun _ => invSubBytes := fun _ _ => rfl

theorem shiftrows : ReplacesBlock [.shiftrows] fun _ => shiftRows := fun _ _ => rfl

theorem invshiftrows : ReplacesBlock [.invshiftrows] fun _ => invShiftRows := fun _ _ => rfl

theorem mixcolumns : ReplacesBlock [.mixcolumns] fun _ => mixColumns := fun _ _ => rfl

theorem invmixcolumns : ReplacesBlock [.invmixcolumns] fun _ => invMixColumns := fun _ _ => rfl

theorem addrk (r : Fin 11) :
    ReplacesBlock [.addrk (BitVec.ofNat 4 r.val)] fun w b => addRoundKey b (roundKey w r) :=
  fun _ hk => execAll_cons (exec_addrk_keyed r hk)

theorem encblk : ReplacesBlock [.encblk] cipher := fun _ hk => execAll_cons (exec_encblk_keyed hk)

theorem decblk : ReplacesBlock [.decblk] invCipher := fun _ hk => execAll_cons (exec_decblk_keyed hk)

theorem restores (h : ReplacesBlock is f) (hf : ∀ w b, f w b = b) {s : State} (hk : s.kvalid = true) :
    execAll is s = .next s := by
  rw [h s hk, hf]

end ReplacesBlock

/-- Settles O48: the half rounds meet, and the commands are the functions. -/
theorem cipherInverse : Obligations.CipherInverse :=
  ⟨fun w b => ⟨invCipher_cipher w b, cipher_invCipher w b⟩, fun _ hk =>
    ⟨(ReplacesBlock.encblk.append .decblk).restores invCipher_cipher hk,
      (ReplacesBlock.decblk.append .encblk).restores cipher_invCipher hk⟩⟩

/-! ### The primitive sequences -/

/-- The commands of one round of R185's sequence for ENCBLK. -/
def encRoundCommands (round : Fin 11) : List Instr :=
  [.subbytes, .shiftrows] ++ (if round ≠ 10 then [.mixcolumns] else []) ++
    [.addrk (BitVec.ofNat 4 round.val)]

/-- The commands of one round of R185's sequence for DECBLK. -/
def decRoundCommands (round : Fin 11) : List Instr :=
  [.invshiftrows, .invsubbytes] ++ [.addrk (BitVec.ofNat 4 round.val)] ++
    (if round ≠ 0 then [.invmixcolumns] else [])

theorem encSequence_eq : encSequence = [.addrk (BitVec.ofNat 4 (0 : Fin 11).val)] ++
    [1, 2, 3, 4, 5, 6, 7, 8, 9, 10].flatMap encRoundCommands := rfl

theorem decSequence_eq : decSequence = [.addrk (BitVec.ofNat 4 (10 : Fin 11).val)] ++
    [9, 8, 7, 6, 5, 4, 3, 2, 1, 0].flatMap decRoundCommands := rfl

namespace ReplacesBlock

theorem encRound (r : Fin 11) :
    ReplacesBlock (encRoundCommands r) fun w b => Machine.encRound w b r :=
  ((subbytes.append shiftrows).append (mixcolumns.onlyIf (r ≠ 10))).append (addrk r)

theorem decRound (r : Fin 11) :
    ReplacesBlock (decRoundCommands r) fun w b => Machine.decRound w b r :=
  ((invshiftrows.append invsubbytes).append (addrk r)).append (invmixcolumns.onlyIf (r ≠ 0))

theorem encSequence : ReplacesBlock encSequence cipher := by
  rw [encSequence_eq]
  exact (addrk 0).append (flatMap encRound)

theorem decSequence : ReplacesBlock decSequence invCipher := by
  rw [decSequence_eq]
  exact (addrk 10).append (flatMap decRound)

end ReplacesBlock

/-- Settles O47: round by round the commands compute the rounds of Cipher and InvCipher. -/
theorem blockCommandsArePrimitiveSequences : Obligations.BlockCommandsArePrimitiveSequences :=
  fun s hk =>
    ⟨(ReplacesBlock.encSequence s hk).trans (exec_encblk_keyed hk).symm,
      (ReplacesBlock.decSequence s hk).trans (exec_decblk_keyed hk).symm⟩

/-! ### The source's vector -/

/-- Settles O49: the schedule and the ten rounds are evaluated on the vector. -/
theorem sourceVectorEncrypts : Obligations.SourceVectorEncrypts := by
  unfold Obligations.SourceVectorEncrypts
  decide +kernel

end Sys2Proof.Machine
end

section
/-! PROOFS. Padding, the message functions and their round trip (spec/45_message_ecb.md R190 to R194,
R198). -/

namespace Sys2Proof.Machine

/-! ### Padding -/

/-- The padding count fits in the byte that carries it. -/
@[simp] theorem toNat_ofNat_padCount (l : Nat) : (BitVec.ofNat 8 (padCount l)).toNat = padCount l := by
  have hle := padCount_le l
  rw [BitVec.toNat_ofNat, Nat.mod_eq_of_lt (by omega)]

theorem getLast?_pad (p : List Byte) :
    (pad p).getLast? = some (BitVec.ofNat 8 (padCount p.length)) := by
  have hne : padCount p.length ≠ 0 := Nat.ne_of_gt (padCount_pos _)
  rw [pad, List.getLast?_append, List.getLast?_replicate, if_neg hne, Option.some_or]

/-- Settles O50: the last byte and the length of Pad are `getLast?_pad` and `length_pad`. -/
theorem padShape : Obligations.PadShape := by
  intro p
  refine ⟨padCount p.length, _, padCount_pos _, padCount_le _, rfl, rfl, toNat_ofNat_padCount _, rfl,
    getLast?_pad p, length_pad p, ?_⟩
  rw [length_pad]
  omega

theorem finalByte_of_getLast? {d : List Byte} {b : Byte} (h : d.getLast? = some b) :
    finalByte d = b.toNat := by
  rw [List.getLast?_eq_getElem?] at h
  rw [finalByte, List.getD_eq_getElem?_getD, h, Option.getD_some]

@[simp] theorem finalByte_pad (p : List Byte) : finalByte (pad p) = padCount p.length := by
  rw [finalByte_of_getLast? (getLast?_pad p), toNat_ofNat_padCount]

@[simp] theorem unpad_pad (p : List Byte) : unpad (pad p) = p := by
  have hlen : (pad p).length - padCount p.length = p.length := by simp [pad]
  rw [unpad, finalByte_pad, hlen, pad, List.take_left]

/-! ### Block by block -/

/-- Settles O51: Pad(P) is cut into whole blocks, and `mapBlocks` takes each through Cipher. -/
theorem encryptMessageByBlocks : Obligations.EncryptMessageByBlocks :=
  fun w p => ⟨length_encryptMessage w p, fun _ hk =>
    drop_take_mapBlocks (cipher w) (pad p) (by rw [length_pad]; omega)⟩

/-- Whole blocks through `f` and then through an inverse of `f` are as they were. -/
theorem mapBlocks_mapBlocks {f g : Block → Block} (hgf : ∀ b, g (f b) = b) {n : Nat} {l : List Byte}
    (hl : l.length = 16 * n) : mapBlocks g n (mapBlocks f n l) = l := by
  induction n generalizing l with
  | zero => exact (List.eq_nil_of_length_eq_zero hl).symm
  | succ n ih =>
    have hhead : (l.take 16).length = 16 := by rw [List.length_take]; omega
    have htail : (l.drop 16).length = 16 * n := by rw [List.length_drop]; omega
    rw [mapBlocks, mapBlocks, List.take_left' (length_blockBytes _),
      List.drop_left' (length_blockBytes _), blockOfBytes_blockBytes, hgf,
      blockBytes_blockOfBytes hhead, ih htail, List.take_append_drop]

@[simp] theorem decryptBlocks_encryptMessage (w : Vector Word 44) (p : List Byte) :
    decryptBlocks w (encryptMessage w p) = pad p := by
  have hblocks : (encryptMessage w p).length / 16 = (pad p).length / 16 := by simp
  rw [decryptBlocks, hblocks, encryptMessage]
  exact mapBlocks_mapBlocks (invCipher_cipher w) (by rw [length_pad]; omega)

/-- Settles O52: InvCipher undoes Cipher on every block of Pad(P), and Unpad undoes Pad. -/
theorem messageRoundTrip : Obligations.MessageRoundTrip := fun w p => by
  rw [decryptMessage, decryptBlocks_encryptMessage, unpad_pad]

end Sys2Proof.Machine
end

section
/-! PROOFS. The message commands: what they write, where they fail, and DECMSG after ENCMSG
(spec/45_message_ecb.md R195 to R198). -/

namespace Sys2Proof.Machine

/-- The last two lines of R196 and R197: what an output short enough for OUTLEN leaves in MEM and
OUTLEN. -/
theorem writeOutput_delivers {s : State} {bs : List Byte} (hbs : bs.length < 2 ^ 32) :
    ∃ (m : Memory) (n : Reg), writeOutput bs s = { s with mem := m, outlen := n } ∧
      n.toNat = bs.length ∧ (∀ k < n.toNat, Memory.read m (s.dst.toNat + k) = bs[k]?) ∧
      ∀ a, a < s.dst.toNat ∨ s.dst.toNat + n.toNat ≤ a → Memory.read m a = Memory.read s.mem a := by
  have hn : (BitVec.ofNat 32 bs.length).toNat = bs.length := by
    rw [BitVec.toNat_ofNat, Nat.mod_eq_of_lt hbs]
  refine ⟨_, _, rfl, hn, fun k hk => read_writeBytes_inside _ (hn ▸ hk), fun a ha => ?_⟩
  rw [hn] at ha
  exact read_writeBytes_outside _ ha

theorem memBytes_le_of_legal {c : Config} (h : c.legal = true) : c.memBytes ≤ 65536 := by
  simp only [Config.legal, Bool.and_eq_true, decide_eq_true_eq] at h
  obtain ⟨⟨-, hmax⟩, -⟩ := h
  exact hmax

/-! ### ENCMSG -/

theorem exec_encmsg {s : State} (hk : s.kvalid = true)
    (hsrc : s.src.toNat + s.len.toNat ≤ s.cfg.memBytes)
    (hdst : s.dst.toNat + 16 * (s.len.toNat / 16 + 1) ≤ s.cfg.memBytes) :
    exec .encmsg s =
      .next (writeOutput (encryptMessage s.w (s.readBytes s.src.toNat s.len.toNat)) s) := by
  obtain ⟨-, -, -, h⟩ | ⟨hk', -⟩ | ⟨-, hr, -⟩ := execEncmsg_cases s
  · exact h
  · simp [hk] at hk'
  · omega

/-- Settles O53: the ciphertext is no longer than MEM, so its length fits in OUTLEN. -/
theorem encmsgCommand : Obligations.EncmsgCommand := by
  intro s hc hk hsrc hdst
  have hmem := memBytes_le_of_legal hc
  have hlen : (encryptMessage s.w (s.readBytes s.src.toNat s.len.toNat)).length =
      16 * (s.len.toNat / 16 + 1) := by
    rw [length_encryptMessage, length_readBytes]
  obtain ⟨m, n, hout, hn, hin, hframe⟩ := writeOutput_delivers (s := s) (hlen.trans_lt (by omega))
  exact ⟨m, n, (exec_encmsg hk hsrc hdst).trans (congrArg _ hout), hn.trans hlen, hin, hframe⟩

theorem exec_encmsg_of_raiseError {e : ErrCode} {s : State}
    (h : execEncmsg s = .next (raiseError e (encode .encmsg) s)) :
    exec .encmsg s = .next (failed e 0x00000004 s) :=
  h.trans (congrArg _ (raiseError_failed (i := .encmsg) e s (by simp)))

/-- Settles O54: the three answers of ENCMSG exclude one another. -/
theorem encmsgErrors : Obligations.EncmsgErrors := by
  intro s
  obtain ⟨hk, hsrc, hdst, -⟩ | ⟨hk, h⟩ | ⟨hk, -, h⟩ := execEncmsg_cases s
  · exact ⟨fun hk' => by simp [hk] at hk', fun _ hr => by omega⟩
  · exact ⟨fun _ => exec_encmsg_of_raiseError h, fun hk' => by simp [hk] at hk'⟩
  · exact ⟨fun hk' => by simp [hk] at hk', fun _ _ => exec_encmsg_of_raiseError h⟩

/-! ### DECMSG -/

theorem exec_decmsg_of_raiseError {e : ErrCode} {s : State}
    (h : execDecmsg s = .next (raiseError e (encode .decmsg) s)) :
    exec .decmsg s = .next (failed e 0x00000005 s) :=
  h.trans (congrArg _ (raiseError_failed (i := .decmsg) e s (by simp)))

theorem exec_decmsg_noKey {s : State} (hk : s.kvalid = false) :
    exec .decmsg s = .next (failed .noKey 0x00000005 s) := by
  obtain ⟨hk', -⟩ | ⟨-, h⟩ | ⟨hk', -⟩ | ⟨hk', -⟩ | ⟨hk', -⟩ := execDecmsg_cases s _ rfl
  case inr.inl => exact exec_decmsg_of_raiseError h
  all_goals simp [hk] at hk'

section Keyed

variable {s : State} (hk : s.kvalid = true)
include hk

theorem exec_decmsg_lenAlign (ha : s.len.toNat % 16 ≠ 0) :
    exec .decmsg s = .next (failed .lenAlign 0x00000005 s) := by
  obtain ⟨-, ha', -⟩ | ⟨hk', -⟩ | ⟨-, -, h⟩ | ⟨-, ha', -⟩ | ⟨-, ha', -⟩ := execDecmsg_cases s _ rfl
  case inr.inl => simp [hk] at hk'
  case inr.inr.inl => exact exec_decmsg_of_raiseError h
  all_goals omega

theorem exec_decmsg_memRange_src (ha : s.len.toNat % 16 = 0)
    (hsrc : s.cfg.memBytes < s.src.toNat + s.len.toNat) :
    exec .decmsg s = .next (failed .memRange 0x00000005 s) := by
  obtain ⟨-, -, hs, -⟩ | ⟨hk', -⟩ | ⟨-, ha', -⟩ | ⟨-, -, hs, -⟩ | ⟨-, -, -, h⟩ :=
    execDecmsg_cases s _ rfl
  · omega
  · simp [hk] at hk'
  · omega
  · omega
  · exact exec_decmsg_of_raiseError h

variable (ha : s.len.toNat % 16 = 0) {d : List Byte}
  (hd : d = decryptBlocks s.w (s.readBytes s.src.toNat s.len.toNat))
include ha hd

theorem exec_decmsg_memRange_dst (h0 : s.len.toNat ≠ 0) (hf : finalByte d ≤ s.len.toNat)
    (hdst : s.cfg.memBytes < s.dst.toNat + (s.len.toNat - finalByte d)) :
    exec .decmsg s = .next (failed .memRange 0x00000005 s) := by
  obtain ⟨-, -, -, -, -, hr, -⟩ | ⟨hk', -⟩ | ⟨-, ha', -⟩ | ⟨-, -, -, hp, -⟩ | ⟨-, -, -, h⟩ :=
    execDecmsg_cases s d hd
  · omega
  · simp [hk] at hk'
  · omega
  · omega
  · exact exec_decmsg_of_raiseError h

variable (hsrc : s.src.toNat + s.len.toNat ≤ s.cfg.memBytes)
include hsrc

theorem exec_decmsg_padRange (hpad : s.len.toNat = 0 ∨ s.len.toNat < finalByte d) :
    exec .decmsg s = .next (failed .padRange 0x00000005 s) := by
  obtain ⟨-, -, -, h0, hf, -⟩ | ⟨hk', -⟩ | ⟨-, ha', -⟩ | ⟨-, -, -, -, h⟩ | ⟨-, -, hr, -⟩ :=
    execDecmsg_cases s d hd
  · omega
  · simp [hk] at hk'
  · omega
  · exact exec_decmsg_of_raiseError h
  · omega

theorem exec_decmsg (h0 : s.len.toNat ≠ 0) (hf : finalByte d ≤ s.len.toNat)
    (hdst : s.dst.toNat + (s.len.toNat - finalByte d) ≤ s.cfg.memBytes) :
    exec .decmsg s = .next (writeOutput (unpad d) s) := by
  obtain ⟨-, -, -, -, -, -, h⟩ | ⟨hk', -⟩ | ⟨-, ha', -⟩ | ⟨-, -, -, hp, -⟩ | ⟨-, -, hr, -⟩ :=
    execDecmsg_cases s d hd
  · exact h
  · simp [hk] at hk'
  · omega
  · omega
  · omega

end Keyed

theorem length_decrypted {s : State} (ha : s.len.toNat % 16 = 0) :
    (decryptBlocks s.w (s.readBytes s.src.toNat s.len.toNat)).length = s.len.toNat := by
  rw [length_decryptBlocks _ (by rwa [length_readBytes]), length_readBytes]

/-- DECMSG has a last decrypted byte only for a positive LEN. -/
theorem len_ne_zero_of_getLast? {s : State} {b : Byte} (ha : s.len.toNat % 16 = 0)
    (hb : (decryptBlocks s.w (s.readBytes s.src.toNat s.len.toNat)).getLast? = some b) :
    s.len.toNat ≠ 0 := by
  rw [← length_decrypted ha]
  intro h0
  rw [List.eq_nil_of_length_eq_zero h0] at hb
  simp at hb

/-- Settles O55: byte k of the truncated output is byte k of the decrypted blocks. -/
theorem decmsgCommand : Obligations.DecmsgCommand := by
  intro s b hk ha hsrc hb hle hdst
  have h0 := len_ne_zero_of_getLast? ha hb
  have hf := finalByte_of_getLast? hb
  have hdec := length_decrypted ha
  generalize hd : decryptBlocks s.w (s.readBytes s.src.toNat s.len.toNat) = d at hb hf hdec ⊢
  have hlen : (unpad d).length = s.len.toNat - b.toNat := by rw [length_unpad, hdec, hf]
  obtain ⟨m, n, hout, hn, hin, hframe⟩ := writeOutput_delivers (s := s) (hlen.trans_lt (by omega))
  rw [← hf] at hle hdst
  refine ⟨m, n, (exec_decmsg hk ha hd.symm hsrc h0 hle hdst).trans (congrArg _ hout), hn.trans hlen,
    fun k hkn => (hin k hkn).trans ?_, hframe⟩
  rw [hn, length_unpad] at hkn
  exact List.getElem?_take_of_lt hkn

/-- Settles O56: each error has its lemma above, with the checks before it passed. -/
theorem decmsgErrors : Obligations.DecmsgErrors := by
  intro s
  refine ⟨exec_decmsg_noKey, exec_decmsg_lenAlign, exec_decmsg_memRange_src, ?_, ?_⟩
  · intro hk hsrc hl
    have h0 : s.len.toNat = 0 := by rw [hl]; rfl
    exact exec_decmsg_padRange hk (by omega) rfl hsrc (.inl h0)
  · intro b hk ha hsrc hb
    have h0 := len_ne_zero_of_getLast? ha hb
    rw [← finalByte_of_getLast? hb]
    exact ⟨fun hlt => exec_decmsg_padRange hk ha rfl hsrc (.inr hlt),
      fun hle hdst => exec_decmsg_memRange_dst hk ha rfl h0 hle hdst⟩

/-! ### DECMSG after ENCMSG -/

/-- Where the bytes at SRC are a ciphertext of `p`, DECMSG delivers `p`. -/
theorem exec_decmsg_encryptMessage {s : State} {p : List Byte} (hk : s.kvalid = true)
    (hread : s.readBytes s.src.toNat s.len.toNat = encryptMessage s.w p)
    (hsrc : s.src.toNat + s.len.toNat ≤ s.cfg.memBytes)
    (hdst : s.dst.toNat + p.length ≤ s.cfg.memBytes) :
    exec .decmsg s = .next (writeOutput p s) := by
  have hlen : s.len.toNat = 16 * (p.length / 16 + 1) := by
    rw [← length_encryptMessage s.w, ← hread, length_readBytes]
  have hd : pad p = decryptBlocks s.w (s.readBytes s.src.toNat s.len.toNat) := by
    rw [hread, decryptBlocks_encryptMessage]
  have hrest : s.len.toNat = p.length + finalByte (pad p) := by
    rw [hlen, finalByte_pad, padCount]
    omega
  have hexec := exec_decmsg hk (by omega) hd hsrc (by omega) (by omega) (by omega)
  rwa [unpad_pad] at hexec

/-- The state in which DECMSG decrypts, to `d`, the output `bs` written in `s`. -/
def decmsgInput (bs : List Byte) (d : Reg) (s : State) : State :=
  { writeOutput bs s with src := s.dst, len := (writeOutput bs s).outlen, dst := d }

theorem toNat_decmsgInput_len {bs : List Byte} (d : Reg) (s : State) (hbs : bs.length < 2 ^ 32) :
    (decmsgInput bs d s).len.toNat = bs.length := by
  rw [decmsgInput, writeOutput_outlen, BitVec.toNat_ofNat, Nat.mod_eq_of_lt hbs]

/-- The output stands at DECMSG's SRC, whatever it overwrote. -/
theorem readBytes_decmsgInput {bs : List Byte} (d : Reg) (s : State) (hbs : bs.length < 2 ^ 32) :
    (decmsgInput bs d s).readBytes s.dst.toNat (decmsgInput bs d s).len.toNat = bs := by
  rw [toNat_decmsgInput_len d s hbs]
  exact readBytes_of_read fun _ hk => read_writeBytes_inside s.mem hk

/-- Settles O57: ENCMSG's ciphertext is of the bytes as they stood before it wrote, and DECMSG delivers
those bytes. -/
theorem encmsgThenDecmsgRestores : Obligations.EncmsgThenDecmsgRestores := by
  intro s d hc hk hsrc hdst hd
  have hmem := memBytes_le_of_legal hc
  have hp := length_readBytes s s.src.toNat s.len.toNat
  have hbyte := @getElem?_readBytes s s.src.toNat s.len.toNat
  have henc := exec_encmsg hk hsrc hdst
  generalize s.readBytes s.src.toNat s.len.toNat = p at hp hbyte henc
  rw [← hp] at hdst hd
  have hbound : (encryptMessage s.w p).length < 2 ^ 32 := by rw [length_encryptMessage]; omega
  have hfits : s.dst.toNat + (decmsgInput (encryptMessage s.w p) d s).len.toNat ≤ s.cfg.memBytes := by
    rwa [toNat_decmsgInput_len d s hbound, length_encryptMessage]
  refine ⟨_, _, henc,
    exec_decmsg_encryptMessage hk (readBytes_decmsgInput d s hbound) hfits hd, ?_, fun k hkl => ?_⟩
  · rw [writeOutput_outlen, hp, BitVec.ofNat_toNat, BitVec.setWidth_eq]
  · exact (read_writeBytes_inside _ (by rwa [hp])).trans (hbyte hkl)

end Sys2Proof.Machine
end

section
/-! PROOFS. The control command (spec/46_engine_control.md R210). -/

namespace Sys2Proof.Machine

theorem exec_nop (s : State) : exec .nop s = .next s := rfl

/-- The word of NOP (spec/30_encoding.md R95). -/
theorem decode_nop : decode 0x00000000 = .ok .nop := decode_encode (i := .nop) rfl

/-- Settles O28: the step on NOP's word is the end of the command, on the state as it stood. -/
theorem nopOnlyEndsBusy : Obligations.NopOnlyEndsBusy := by
  refine ⟨exec_nop, fun s hm => ?_⟩
  calc step s = performCommand 0x00000000 s := step_engine hm
    _ = .next (finishCommand s) := performCommand_of_decode decode_nop (exec_nop s)

end Sys2Proof.Machine
end

section
/-! PROOFS. Which agent can stop the machine, and what leaves the engine as it was
(spec/60_exceptions.md R220, R230, R239). -/

namespace Sys2Proof.Machine

/-- Settles O7: a command that runs keeps ERR, and one that fails takes R225's error entry. -/
theorem everyCommandCompletes : Obligations.EveryCommandCompletes := by
  intro i s
  obtain ⟨t, h, hran⟩ | ⟨e, he, h⟩ := exec_cases i s
  · exact ⟨t, h, .inl hran.err⟩
  · exact ⟨_, h, .inr ⟨he, rfl, rfl⟩⟩

/-! ### The agents -/

/-- With no command pending and no host line left, neither agent moves. -/
theorem step_idle {s : State} (hp : s.pend = none) (hop : s.hostOp = none) : step s = .next s := by
  simp [step, advance, hp, hostTurn, hop]

/-- Settles O6: neither agent moves. -/
theorem idleStepChangesNothing : Obligations.IdleStepChangesNothing := fun _ => step_idle

/-- In every state the engine moves, the host moves, or the machine is idle. -/
theorem agent_cases (s : State) :
    (∃ v, EngineMoves v s) ∨ (∃ op, HostMoves op s) ∨ (s.pend = none ∧ s.hostOp = none) := by
  cases hop : s.hostOp with
  | none =>
    cases hp : s.pend with
    | none => exact .inr (.inr ⟨rfl, rfl⟩)
    | some v => exact .inl ⟨v, hp, .inr hop⟩
  | some op =>
    by_cases hturn : s.pend = none ∨ s.busyLeft ≠ 0
    · exact .inr (.inl ⟨op, hop, hturn⟩)
    · obtain ⟨hp, hb⟩ := not_or.1 hturn
      obtain ⟨v, hv⟩ := Option.ne_none_iff_exists'.1 hp
      exact .inl ⟨v, hv, .inl (not_not.1 hb)⟩

/-! ### Hazards -/

theorem isStatusRead_iff (op : HostOp) : isStatusRead op = true ↔ op = .read 0x004 32 := by
  cases op <;> simp [isStatusRead]

/-- The transactions spec/70_reset_and_hazards.md R260 does not permit. -/
theorem hazard_iff (op : HostOp) (s : State) :
    hazard op s = true ↔ s.window = true ∧ isTransaction op = true ∧ op ≠ .read 0x004 32 := by
  rw [hazard, Bool.and_eq_true, Bool.and_eq_true, Bool.not_eq_true', ← Bool.not_eq_true,
    isStatusRead_iff, and_assoc]

theorem step_hazard {op : HostOp} {s : State} (hm : HostMoves op s) (hz : hazard op s = true) :
    step s = .fault .hazardViolation := by
  rw [step_host hm, hostStep, if_pos hz]

/-- A step answers a next state, or it faults on the host's hazardous line. -/
theorem step_next_or_hazard (s : State) :
    (∃ t, step s = .next t) ∨ ∃ op, HostMoves op s ∧ hazard op s = true := by
  obtain ⟨v, hm⟩ | ⟨op, hm⟩ | ⟨hp, hop⟩ := agent_cases s
  · obtain ⟨t, h, -⟩ := step_engine_hostSide hm
    exact .inl ⟨t, h⟩
  · by_cases hz : hazard op s = true
    · exact .inr ⟨op, hm, hz⟩
    · exact .inl ⟨_, by rw [step_host hm, hostStep, if_neg hz]⟩
  · exact .inl ⟨s, step_idle hp hop⟩

/-- Settles O8: only the host's turn has a branch that answers no next state, the hazard. -/
theorem onlyHazardsStop : Obligations.OnlyHazardsStop := by
  refine ⟨fun s r h => ?_, fun s r => ⟨fun h => ?_, ?_⟩⟩
  · obtain ⟨t, h'⟩ | ⟨op, hm, hz⟩ := step_next_or_hazard s
    · cases h.symm.trans h'
    · cases h.symm.trans (step_hazard hm hz)
  · obtain ⟨t, h'⟩ | ⟨op, hm, hz⟩ := step_next_or_hazard s
    · cases h.symm.trans h'
    · cases h.symm.trans (step_hazard hm hz)
      obtain ⟨hw, hop⟩ := (hazard_iff op s).1 hz
      exact ⟨rfl, hw, op, hm, hop⟩
  · rintro ⟨rfl, hw, op, hm, hop⟩
    exact step_hazard hm ((hazard_iff op s).2 ⟨hw, hop⟩)

/-! ### Bus errors -/

/-- The three kinds of spec/60_exceptions.md R230. -/
theorem busError_iff (off : BitVec 17) (width : Nat) : busError off width = true ↔
    (width ≠ 8 ∧ width ≠ 32) ∨ (width = 32 ∧ off.toNat % 4 ≠ 0) ∨
      (width = 8 ∧ off.toNat < 0x10000) := by
  by_cases h32 : width = 32
  · simp [busError, h32]
  · by_cases h8 : width = 8 <;> simp [busError, h32, h8]

/-- Settles O16: R230's three kinds are the model's bus errors. -/
theorem busErrorChangesNothing : Obligations.BusErrorChangesNothing := fun _ off width _ hw h =>
  have hb := (busError_iff off width).2 h
  ⟨fun hm => step_read_busError hm hw hb, fun hm => step_write_busError hm hw hb⟩

end Sys2Proof.Machine
end

section
/-! PROOFS. Error entry and the cause of each error (spec/60_exceptions.md R224 to R226). -/

namespace Sys2Proof.Machine

/-- The errors of KEXP. -/
theorem kexp_error {s t : State} (h0 : s.err = .noError) (h : exec .kexp s = .next t)
    (ht : t.err ≠ .noError) : t.err = .configError ∨ t.err = .memRange := by
  obtain ⟨-, -, h'⟩ | ⟨-, h'⟩ | ⟨-, -, h'⟩ := execKexp_cases s <;> cases h.symm.trans h'
  · exact absurd h0 ht
  · exact .inl rfl
  · exact .inr rfl

/-- Settles O22: a command that ran holds no error, and one that failed is `raiseError`, which drops
KVALID for the errors of KEXP. -/
theorem errorEntry : Obligations.ErrorEntry := by
  refine ⟨fun i s t _ h0 h ht => ?_, fun s v e hm he => ?_⟩
  · obtain ⟨u, hu, hran⟩ | ⟨e, -, hu⟩ := exec_cases i s <;> cases h.symm.trans hu
    · exact absurd (hran.err.trans h0) ht
    · refine ⟨raiseError_failed e s, ?_⟩
      rintro rfl
      have he := kexp_error h0 h ht
      exact ⟨raiseError_kexp he s, he⟩
  · exact (step_engine hm).trans (performCommand_of_illegal s he)

/-! ### Causes -/

/-- The last byte of a sequence is the `finalByte` of spec/45_message_ecb.md R193, where there is one. -/
theorem exists_getLast?_iff (d : List Byte) (P : Nat → Prop) :
    (∃ b, d.getLast? = some b ∧ P b.toNat) ↔ d.length ≠ 0 ∧ P (finalByte d) := by
  cases hb : d.getLast? with
  | none => simp [List.getLast?_eq_none_iff.1 hb]
  | some b =>
    have hd : d ≠ [] := by
      rintro rfl
      simp at hb
    simp [hd, finalByte_of_getLast? hb]

theorem exists_getLast?_lt_iff (d : List Byte) (n : Nat) :
    (∃ b, d.getLast? = some b ∧ n < b.toNat) ↔ d.length ≠ 0 ∧ n < finalByte d :=
  exists_getLast?_iff d (n < ·)

/-- The output that the last byte leaves of `n` bytes does not fit at `a` in a MEM of `m` bytes. -/
theorem exists_getLast?_le_iff (d : List Byte) (n m a : Nat) :
    (∃ b, d.getLast? = some b ∧ b.toNat ≤ n ∧ m < a + (n - b.toNat)) ↔
      d.length ≠ 0 ∧ finalByte d ≤ n ∧ m < a + (n - finalByte d) :=
  exists_getLast?_iff d fun k => k ≤ n ∧ m < a + (n - k)

/-- Settles O23: command by command, the checks of its meaning are the causes of R224, in the order
of R226. -/
theorem errorCauses : Obligations.ErrorCauses := by
  intro i s t hwf h0 h
  cases i with
  | kexp =>
    obtain ⟨hl, hs, h'⟩ | ⟨hl, h'⟩ | ⟨hl, hs, h'⟩ := execKexp_cases s <;> cases h.symm.trans h'
    · simp [h0, hl, hs]
    · simp [show ¬ s.len = 16#32 from hl]
    · simp [hl, hs]
  | addrk r =>
    have hr : r.toNat ≤ 10 := of_decide_eq_true hwf
    obtain ⟨_, hk, h'⟩ | ⟨-, hk, h'⟩ | ⟨hr', -⟩ := execAddrk_cases r s
    · cases h.symm.trans h'
      simp [h0, hk]
    · cases h.symm.trans h'
      simp [hk]
    · omega
  | rconxor j =>
    have hj : 1 ≤ j.toNat ∧ j.toNat ≤ 10 := by simpa [Instr.wf] using hwf
    obtain ⟨-, -, h'⟩ | ⟨hj', -⟩ := execRconxor_cases j s
    · cases h.symm.trans h'
      simp [h0]
    · exact absurd hj hj'
  | encblk =>
    obtain ⟨hk, h'⟩ | ⟨hk, h'⟩ := execEncblk_cases s <;> cases h.symm.trans h' <;> simp [h0, hk]
  | decblk =>
    obtain ⟨hk, h'⟩ | ⟨hk, h'⟩ := execDecblk_cases s <;> cases h.symm.trans h' <;> simp [h0, hk]
  | ldstate =>
    obtain ⟨hs, h'⟩ | ⟨hs, h'⟩ := execLdstate_cases s <;> cases h.symm.trans h' <;> simp [h0, hs]
  | ststate =>
    obtain ⟨hs, h'⟩ | ⟨hs, h'⟩ := execStstate_cases s <;> cases h.symm.trans h' <;> simp [h0, hs]
  | encmsg =>
    obtain ⟨hk, hs, hd, h'⟩ | ⟨hk, h'⟩ | ⟨hk, hr, h'⟩ := execEncmsg_cases s <;> cases h.symm.trans h'
    · simp [h0, hk, hs, hd]
    · simp [hk]
    · simp [hk, hr]
  | decmsg =>
    have hzero : s.len = 0#32 ↔ s.len.toNat = 0 := BitVec.toNat_inj.symm
    obtain ⟨hk, ha, hs, hl, hf, hd, h'⟩ | ⟨hk, h'⟩ | ⟨hk, ha, h'⟩ | ⟨hk, ha, hs, hp, h'⟩ |
      ⟨hk, ha, hr, h'⟩ := execDecmsg_cases s _ rfl <;> cases h.symm.trans h'
    · simp [h0, hk, ha, hs, hzero, exists_getLast?_lt_iff, exists_getLast?_le_iff, length_decrypted ha]
      omega
    · simp [hk]
    · simp [hk, ha]
    · simp [hk, ha, hs, hzero, exists_getLast?_lt_iff, exists_getLast?_le_iff, length_decrypted ha]
      omega
    · simp [hk, ha, hzero, exists_getLast?_lt_iff, exists_getLast?_le_iff, length_decrypted ha]
      omega
  | _ =>
    cases h
    simp [h0]

end Sys2Proof.Machine
end

section
/-! PROOFS. The hazard window and reset (spec/70_reset_and_hazards.md R250, R260). -/

namespace Sys2Proof.Machine

/-- What a step does to the window: only a host line changes it, a CMD write, a STATUS read or reset. -/
theorem step_window {s t : State} (h : step s = .next t) :
    t.window = s.window ∨
    (t.window = true ∧ ∃ v, HostMoves (.write 0x000 32 v) s ∧ s.err = .noError ∧ t.pend = some v) ∨
    (t.window = false ∧ (HostMoves .reset s ∨ (HostMoves (.read 0x004 32) s ∧ s.pend = none))) := by
  obtain ⟨v, i, u, -, -, hran, rfl⟩ | ⟨v, e, -, -, rfl⟩ | ⟨op, u, hm, hu, rfl⟩ | ⟨hm, rfl⟩ | rfl :=
    step_effect h
  · exact .inl hran.window
  · exact .inl rfl
  · obtain ⟨-, hw⟩ | ⟨rfl, hp, -, hw⟩ | ⟨v, rfl, he, -, hp, hw⟩ := hu.busy
    · exact .inl hw
    · exact .inr (.inr ⟨hw, .inr ⟨hm, hp⟩⟩)
    · exact .inr (.inl ⟨hw, v, hm, he, hp⟩)
  · exact .inr (.inr ⟨rfl, .inl hm⟩)
  · exact .inl rfl

/-- Settles O18: the window opens and closes by the lines of `step_window` alone. -/
theorem hazardWindow : Obligations.HazardWindow := by
  intro s t h
  obtain hw | ⟨hw, v, hm, he, hp⟩ | ⟨hw, hm⟩ := step_window h
  · cases hs : s.window <;> simp [hw, hs]
  · exact ⟨fun _ _ => ⟨v, _, hm, rfl, he, hp⟩, fun _ hw' => by simp [hw] at hw'⟩
  · exact ⟨fun _ hw' => by simp [hw] at hw', fun _ _ => hm⟩

/-- STATUS reads 0 with no error held, no valid key and no command pending (spec/10_state.md R24). -/
theorem status_eq_zero {s : State} (he : s.err = .noError) (hk : s.kvalid = false)
    (hp : s.pend = none) : s.status = 0 := by
  rw [State.status, State.busy, he, hk, hp]
  rfl

/-- Settles O19: reset is taken in the hazard window or out of it, and writes every register of R250. -/
theorem resetValues : Obligations.ResetValues :=
  ⟨fun _ => ⟨status_eq_zero rfl rfl rfl, rfl, rfl, rfl, rfl, rfl, rfl⟩, fun _ hm =>
    ⟨_, step_nonTransaction hm rfl, status_eq_zero rfl rfl rfl, rfl, rfl, rfl, rfl, rfl, rfl, rfl, rfl,
      rfl⟩⟩

end Sys2Proof.Machine
end
